-- ==== Sys2Proof/Word.lean ====
section
/-!
DEFINITION. The two words of the machine: bytes of the stream, the cache and the pixels, and the 32-bit
registers (00_scope.md R8, R10).
-/
namespace Sys2Proof

/-- A `u8` (R10): a stream byte, a brightness. -/
abbrev Byte := BitVec 8

/-- A `u32` (R8 `CSR_WIDTH`, `PTR_WIDTH`; R10): a register of the engine or of the CSR window. -/
abbrev Word := BitVec 32

end Sys2Proof
end

