-- ==== Sys2Proof/Config.lean ====
section
/-!
DEFINITION. What one implementation fixes: the OPEN parameters of 00_scope.md R8 and 20_memory.md R56, the
constants of R7, and the free values.
-/
namespace Sys2Proof

/-- The OPEN parameters (R8, R56; 93 I1 to I3). A machine carries one in its state and no step changes it
(assumption 1). -/
structure Config where
  /-- `IN_MEM_SIZE`, the bytes of InMem. -/
  inMemSize : Nat
  /-- `PIX_MEM_SIZE`, the bytes of PixMem. -/
  pixMemSize : Nat
  /-- `CSR_BASE`, where the platform places the CSR window. -/
  csrBase : Nat
  /-- `IN_MEM_BASE`, where the platform places InMem. -/
  inMemBase : Nat
  /-- `PIX_MEM_BASE`, where the platform places PixMem. -/
  pixMemBase : Nat
deriving DecidableEq, Repr

namespace Config

/-- The bytes of the CSR window (R33). -/
abbrev csrWindow : Nat := 0x200

/-- The ranges R8 gives the two sizes. -/
abbrev SizesInRange (c : Config) : Prop :=
  20 ≤ c.inMemSize ∧ c.inMemSize ≤ 2 ^ 32 - 1 ∧ c.pixMemSize ≤ 2 ^ 32 - 1

/-- The configuration after `State.reset`: the sizes 95_test_vectors.md takes where it says nothing else
(section 0), and three windows side by side (DESIGN CHOICE, assumption 2). -/
def standard : Config where
  inMemSize := 65536
  pixMemSize := 65536
  csrBase := 0
  inMemBase := 0x10000
  pixMemBase := 0x20000

/-- FREE VALUE. The byte that the `n`-th draw gives, where the spec lets a host's read of PixMem return any byte
(R54, R64, 93 I15; assumption 6). Nothing constrains it. -/
opaque freeByte : Nat → Byte

/-- FREE VALUE. What an InMem offset holds after the `n`-th power-on until it is written: unspecified (R45), and
the same at every read (R63; assumption 7). Nothing constrains it. -/
opaque powerOnByte : Nat → Nat → Byte

end Config

/-- `HEADER_LEN` (R7). -/
abbrev headerLen : Nat := 12

/-- `MAGIC`, the four bytes `"fmif"` in stream order (R7). -/
def magicBytes : List Byte := [0x66#8, 0x6D#8, 0x69#8, 0x66#8]

/-- `FOOTER_LEN` (R7). -/
abbrev footerLen : Nat := 8

/-- `FOOTER` (R7, R82). -/
def footerBytes : List Byte := [0#8, 0#8, 0#8, 0#8, 0#8, 0#8, 0#8, 1#8]

/-- `DELTA_BIAS` (R7). -/
abbrev deltaBias : Int := 32

/-- The largest run length of the 14-bit field, `2 ^ RUN_LEN_BITS - 1` (R7). -/
abbrev maxRunLen : Nat := 16383

/-- `ENC_RUN_CAP`, the reference producer's cap; the decoder does not enforce it (R7). -/
abbrev encRunCap : Nat := 1023

end Sys2Proof
end

