-- ==== Sys2Proof/Syntax.lean ====
section
/-!
DEFINITION. The instructions: the four token forms and the two directives of the stream, one constructor per
row of spec/opcode_table.json, with the operands of the assembly syntax (30_encoding.md R88, R92, R93).
-/
namespace Sys2Proof

/-- What a stream is made of (R92, R93). The operands are the assembly operands; `Instr.wf` is the ranges an
encoding admits. -/
inductive Instr where
  /-- `RUN L`: repeat the previous brightness `L` times (R84, R162). -/
  | run (len : Nat)
  /-- `LIT v, p`: the brightness `v`, with the ignored bits `p` of the first byte (R85, R163). -/
  | lit (pad : BitVec 6) (value : Byte)
  /-- `CREF i`: the brightness in cache slot `i` (R86, R164). -/
  | cref (index : Fin 64)
  /-- `DELTA d`: the previous brightness plus `d` (R87, R165). -/
  | delta (diff : Int)
  /-- `HDR w, h`: the 12 bytes of the header (R81, R110). -/
  | hdr (width height : Word)
  /-- `FTR`: the 8 bytes of the footer (R82, R114). -/
  | ftr
deriving DecidableEq, Repr

end Sys2Proof
end

