-- ==== Sys2Proof/WellFormed.lean ====
section
/-!
DEFINITION. The operand ranges of 30_encoding.md R92: "An operand out of range is an assembly error; it is
not encoded." The ranges that a field's type already gives (a slot index, a byte, a pad) need no check.
-/
namespace Sys2Proof

/-- Every operand is in the range its encoding admits (R92). -/
def Instr.wf : Instr → Bool
  | .run len => decide (len ≤ maxRunLen)
  | .lit _ _ => true
  | .cref _ => true
  | .delta diff => decide (-32 ≤ diff ∧ diff ≤ 31)
  | .hdr _ _ => true
  | .ftr => true

end Sys2Proof
end

