-- ==== Sys2Proof/Decode.lean ====
section
/-!
DEFINITION. Decoding and encoding (30_encoding.md). A stream has three regions and each is read by its own
grammar: the 12-byte header, the token region, the 8-byte footer (R80, R91).
-/
namespace Sys2Proof

/-- Which part of the stream is being read (R80). -/
inductive Region where
  /-- Offsets 0 to 11 (R81). -/
  | preamble
  /-- Offsets 12 to N − 9 (R83). -/
  | token
  /-- Offsets N − 8 to N − 1 (R82). -/
  | trailer
deriving DecidableEq, Repr

/-- Why bytes are no instruction. -/
inductive DecodeError where
  /-- The first four bytes of the header are not `"fmif"` (R111). -/
  | badMagic
  /-- There are fewer than the 12 bytes of a header (R111). -/
  | shortHeader
  /-- The token region ends before the token does (R161). -/
  | truncatedToken
deriving DecidableEq, Repr

/-- The four variants the tag selects (R130). -/
inductive Variant where
  | cref | delta | run | lit
deriving DecidableEq, Repr

/-- The tag decoder: bits 7 and 6 of the first byte, four arms and no wildcard (R130, R89). -/
def tagOf (b0 : Byte) : Variant :=
  match b0[7], b0[6] with
  | false, false => .cref
  | false, true => .delta
  | true, false => .run
  | true, true => .lit

/-- A token's length in bytes, from its tag alone (R83, R130). -/
def Variant.bytes : Variant → Nat
  | .cref => 1
  | .delta => 1
  | .run => 2
  | .lit => 2

/-- `b0[5:0]`, the low six bits of a token's first byte (R9). -/
def lowSix (b0 : Byte) : BitVec 6 := b0.extractLsb' 0 6

/-- The run_length_decoder: `L = b0[5:0] ++ b1[7:0]` (R59, R88, R135; assumption 14). -/
def runLength (b0 b1 : Byte) : Nat := (lowSix b0 ++ b1).toNat

/-- The unbiased delta `d = zext_8(b0[5:0]) − 32` (R88). -/
def deltaDiff (b0 : Byte) : Int := ((lowSix b0).toNat : Int) - deltaBias

/-- The slot a CREF names, `i = b0[5:0]` (R88). -/
def crefIndex (b0 : Byte) : Fin 64 := (lowSix b0).toFin

/-- Four bytes in stream order as one big-endian `u32`: `MemRead(a, 4)` (R11, R58, R60). -/
def be32 (b0 b1 b2 b3 : Byte) : Word := b0 ++ b1 ++ b2 ++ b3

/-- The four bytes of a `u32` in stream order, the most significant first (R58, R93). -/
def be32Bytes (w : Word) : List Byte :=
  [w.extractLsb' 24 8, w.extractLsb' 16 8, w.extractLsb' 8 8, w.extractLsb' 0 8]

/-- One token from the bytes of the token region, and the bytes after it (R83 to R89). -/
def decodeToken : List Byte → Except DecodeError (Instr × List Byte)
  | [] => .error .truncatedToken
  | b0 :: rest =>
    match tagOf b0 with
    | .cref => .ok (.cref (crefIndex b0), rest)
    | .delta => .ok (.delta (deltaDiff b0), rest)
    | .run =>
      match rest with
      | [] => .error .truncatedToken
      | b1 :: rest' => .ok (.run (runLength b0 b1), rest')
    | .lit =>
      match rest with
      | [] => .error .truncatedToken
      | b1 :: rest' => .ok (.lit (lowSix b0) b1, rest')

/-- The fields of a header after its magic, and the bytes after the header (R58, R112). -/
def decodeDims : List Byte → Except DecodeError (Instr × List Byte)
  | w0 :: w1 :: w2 :: w3 :: h0 :: h1 :: h2 :: h3 :: rest =>
    .ok (.hdr (be32 w0 w1 w2 w3) (be32 h0 h1 h2 h3), rest)
  | _ => .error .shortHeader

/-- The header: the magic is compared byte by byte before the dimensions are looked at (R58, R81, R111). -/
def decodeHeader : List Byte → Except DecodeError (Instr × List Byte)
  | m0 :: m1 :: m2 :: m3 :: rest =>
    if [m0, m1, m2, m3] = magicBytes then decodeDims rest else .error .badMagic
  | _ => .error .shortHeader

/-- The decoder, total on any bytes. The footer's bytes are not looked at: any bytes are accepted there
(R114). -/
def decode : Region → List Byte → Except DecodeError (Instr × List Byte)
  | .preamble, bs => decodeHeader bs
  | .token, bs => decodeToken bs
  | .trailer, bs => .ok (.ftr, bs.drop footerLen)

/-- The region an instruction stands in (R80, R91). -/
def Instr.region : Instr → Region
  | .run _ => .token
  | .lit _ _ => .token
  | .cref _ => .token
  | .delta _ => .token
  | .hdr _ _ => .preamble
  | .ftr => .trailer

/-- The bytes an instruction takes in the stream (R81, R82, R83). -/
def Instr.bytes : Instr → Nat
  | .run _ => 2
  | .lit _ _ => 2
  | .cref _ => 1
  | .delta _ => 1
  | .hdr _ _ => headerLen
  | .ftr => footerLen

/-- The encoder: the bytes R84 to R87 and R93 give, in stream order. -/
def encode : Instr → List Byte
  | .run len => [0b10#2 ++ BitVec.ofNat 6 (len / 256), BitVec.ofNat 8 len]
  | .lit pad value => [0b11#2 ++ pad, value]
  | .cref index => [0b00#2 ++ BitVec.ofNat 6 index]
  | .delta diff => [0b01#2 ++ BitVec.ofInt 6 (diff + deltaBias)]
  | .hdr width height => magicBytes ++ be32Bytes width ++ be32Bytes height
  | .ftr => footerBytes

/-- One line of a stream text: a token or directive, or `.byte` (R92, R93). -/
inductive AsmLine where
  | instr (i : Instr)
  | bytes (bs : List Byte)
deriving DecidableEq, Repr

/-- The bytes of one line; an operand out of range is an assembly error (R92). -/
def AsmLine.encode : AsmLine → Option (List Byte)
  | .instr i => if i.wf then some (Sys2Proof.encode i) else none
  | .bytes bs => some bs

/-- A stream text as bytes (R93). -/
def assemble : List AsmLine → Option (List Byte)
  | [] => some []
  | l :: ls =>
    match l.encode, assemble ls with
    | some bs, some rest => some (bs ++ rest)
    | _, _ => none

/-- The tokens of a token region, and the first byte of a last token cut short, if there is one (R93). -/
def disassemble : List Byte → List Instr × List Byte
  | [] => ([], [])
  | [b0] =>
    match decodeToken [b0] with
    | .ok (i, _) => ([i], [])
    | .error _ => ([], [b0])
  | b0 :: b1 :: rest =>
    match tagOf b0 with
    | .cref => (.cref (crefIndex b0) :: (disassemble (b1 :: rest)).1, (disassemble (b1 :: rest)).2)
    | .delta => (.delta (deltaDiff b0) :: (disassemble (b1 :: rest)).1, (disassemble (b1 :: rest)).2)
    | .run => (.run (runLength b0 b1) :: (disassemble rest).1, (disassemble rest).2)
    | .lit => (.lit (lowSix b0) b1 :: (disassemble rest).1, (disassemble rest).2)

/-- The region that a row of spec/opcode_table.json belongs to, from the bits the table gives it: a token has
at most 16, the footer 64, the header 32 fixed bits of 96 (assumption 11). -/
def tableRegion (nbits : Nat) : Region :=
  if nbits ≤ 16 then .token else if nbits = 64 then .trailer else .preamble

/-- An instruction's table bits as the bytes of the stream: a token's words are bytes, a header's are three
big-endian `u32`s, a footer's is one big-endian number of 64 bits (R58, R82; assumption 11). -/
def tableBytes (nbits w : Nat) : List Byte :=
  match tableRegion nbits with
  | .token => [BitVec.ofNat 8 (w % 2 ^ nbits), BitVec.ofNat 8 (w % 2 ^ nbits / 256)]
  | .preamble =>
    be32Bytes (BitVec.ofNat 32 (w % 2 ^ nbits)) ++ be32Bytes (BitVec.ofNat 32 (w % 2 ^ nbits / 2 ^ 32)) ++
      be32Bytes (BitVec.ofNat 32 (w % 2 ^ nbits / 2 ^ 64))
  | .trailer => be32Bytes (BitVec.ofNat 32 (w / 2 ^ 32)) ++ be32Bytes (BitVec.ofNat 32 w)

/-- The instruction the decoder reads from table bits. -/
def decodeTableWord (nbits w : Nat) : Option Instr :=
  match decode (tableRegion nbits) (tableBytes nbits w) with
  | .ok (i, _) => some i
  | .error _ => none

end Sys2Proof
end

