-- ==== Sys2Proof/Machine/State.lean ====
section
/-!
DEFINITION. The state of one `token_demux` (10_state.md R20), the reasons a step can stop, and the state after
power-on reset (R45, R270). Plain data throughout.
-/
namespace Sys2Proof.Machine

/-- The engine's control state (R21). -/
inductive Phase where
  /-- No pass has been started since reset. -/
  | idle
  /-- START was accepted; the header step is next. -/
  | header
  /-- The header was accepted; token steps run. -/
  | tokens
  /-- The pass ended when `ptr` reached `end`. -/
  | done
  /-- The pass ended with an error. -/
  | error
deriving DecidableEq, Repr

/-- One slot of the cache (R26). -/
structure Slot where
  valid : Bool
  value : Byte
deriving DecidableEq, Repr

/-- `cache[0..63]` (R26). -/
abbrev Cache := Vector Slot 64

/-- The empty slot `(0, 0)` (R26). -/
def Slot.empty : Slot := ⟨false, 0#8⟩

/-- Every slot `(0, 0)`: the cache after reset and after START (R26). -/
def Cache.empty : Cache := Vector.replicate 64 Slot.empty

/-- A byte memory: the bytes that have been written since power-on, by rising offset. A byte that is not
listed has no value (R45, R51). -/
abbrev Memory := List Host.Cell

/-- What the host can do to the engine (R190 to R197; 20_memory.md R50, R53). An access names its width in
bytes and its offset in its own space. -/
inductive HostOp where
  /-- A CSR read of `width` bytes at a CSR offset (R190). -/
  | csrRead (width offset : Nat)
  /-- A CSR write of `width` bytes at a CSR offset (R191). -/
  | csrWrite (width offset : Nat) (value : Word)
  /-- A byte written to InMem (R50). -/
  | inMemWrite (offset : Nat) (value : Byte)
  /-- A byte read from InMem (R50). -/
  | inMemRead (offset : Nat)
  /-- A byte read from PixMem (R53). -/
  | pixMemRead (offset : Nat)
deriving DecidableEq, Repr

/-- One thing that happens next: an action of the host, one step of the engine, or a power-on reset. -/
inductive Event where
  | host (op : HostOp)
  | engine
  | powerOn
deriving DecidableEq, Repr

/-- What a host read returned. -/
inductive HostDatum where
  | word (value : Word)
  | byte (value : Byte)
deriving DecidableEq, Repr

/-- Offsets of PixMem from `first` up to, not including, `past`. -/
structure Extent where
  first : Nat
  past : Nat
deriving DecidableEq, Repr

/-- The offset lies in the extent. -/
abbrev Extent.Covers (e : Extent) (a : Nat) : Prop := e.first ≤ a ∧ a < e.past

/-- What is left of an extent at or above `n`. -/
def Extent.from (n : Nat) (e : Extent) : Extent := ⟨max n e.first, e.past⟩

/-- THE MODEL'S OWN: the host's side of the interface. The spec gives the engine no such state (R20); it makes
the order of host actions and engine steps plain data that a step reads (assumption 3). -/
structure HostSide where
  /-- The events still to come, the next first. When it is empty the engine steps (R196). -/
  agenda : List Event
  /-- What the host's reads returned, the latest first. -/
  observed : List HostDatum
  /-- How many free values have been drawn. -/
  draws : Nat
  /-- A STATUS read has returned DONE = 1 or ERR = 1 for the last pass, so its pixels are visible (R64). -/
  synced : Bool
  /-- The pixels of earlier passes that no such STATUS read has made visible (R64, assumption 6). -/
  unseen : List Extent
  /-- How many power-on resets have happened since the first (assumption 7). -/
  powerOns : Nat
deriving DecidableEq, Repr

/-- The architectural state (R20), the parameters it runs under (assumption 1) and the host's side. -/
structure State where
  /-- The OPEN parameters (R8); no step changes them. -/
  cfg : Config
  /-- `phase` (R21). -/
  phase : Phase
  /-- `prev`, the previous brightness (R23). -/
  prev : Byte
  /-- `ptr`, the token pointer, the program counter (R24). -/
  ptr : Word
  /-- `end`, the exclusive bound of the token region (R25). -/
  tokenEnd : Word
  /-- `cache[0..63]` (R26). -/
  cache : Cache
  /-- `out_count`, the pixels written in the pass (R28). -/
  outCount : Word
  /-- `width` (R29). -/
  width : Word
  /-- `height` (R29). -/
  height : Word
  /-- `err_code` (R30, R240). -/
  errCode : BitVec 3
  /-- `err_offset` (R30, R244). -/
  errOffset : Word
  /-- `stream_len`, the length N of the stream (R31). -/
  streamLen : Word
  /-- InMem (R50). -/
  inMem : Memory
  /-- PixMem (R53). -/
  pixMem : Memory
  /-- The model's own (assumption 3). -/
  host : HostSide
deriving DecidableEq, Repr

/-- The five errors a pass can end with (R240). An error is no stop of the model: `State.raiseError` enters it
and the machine goes on in phase ERROR. -/
inductive ErrorKind where
  | badMagic
  | unresolvedCacheRef
  | badLength
  | truncatedToken
  | outputOverflow
deriving DecidableEq, Repr

/-- What no step from a legal state answers: R12 has no such outcome. -/
inductive Fault where
  /-- The engine's read of InMem at or above `IN_MEM_SIZE` (R50), in a state that no run reaches, where `end`
  lies beyond the memory (assumption 9). Safe: the model stops. -/
  | engineOutsideInMem (offset : Nat)
deriving DecidableEq, Repr

/-- The situations to which the model gives no meaning (R12), and the arm of an instruction without one. -/
inductive Refusal where
  /-- An instruction whose arm has no meaning yet; no arm of this model raises it. Safe. -/
  | notModelled (mnemonic : String)
  /-- The engine would read an InMem byte the host has not written since power-on (R51). Safe. -/
  | inMemUnwritten (offset : Nat)
  /-- The host writes InMem while the engine is busy (R65). Safe. -/
  | inMemWriteWhileBusy (offset : Nat)
  /-- A CSR access that is not 32 bits wide (R62). Safe. -/
  | csrWidth (width : Nat)
  /-- A CSR access at an offset that is no multiple of 4 (R62). Safe. -/
  | csrMisaligned (offset : Nat)
  /-- A 32-bit aligned CSR access above offset 0x1FF, the end of the window (R62; assumption 9). Safe. -/
  | csrOutside (offset : Nat)
  /-- A host access to InMem at or above `IN_MEM_SIZE` (R50; assumption 9). Safe. -/
  | inMemOutside (offset : Nat)
  /-- A host read of PixMem at or above `PIX_MEM_SIZE` (R53; assumption 9). Safe. -/
  | pixMemOutside (offset : Nat)
deriving DecidableEq, Repr

/-- The host's side with nothing planned, observed or drawn (the model's own, assumptions 3 and 16). -/
def HostSide.empty : HostSide where
  agenda := []
  observed := []
  draws := 0
  synced := false
  unseen := []
  powerOns := 0

/-- The machine of parameters `c` after power-on reset (R45, R270): phase IDLE, every register 0, every slot
empty, no byte of either memory written. -/
def State.powerOn (c : Config) : State where
  cfg := c
  phase := .idle
  prev := 0#8
  ptr := 0#32
  tokenEnd := 0#32
  cache := Cache.empty
  outCount := 0#32
  width := 0#32
  height := 0#32
  errCode := 0#3
  errOffset := 0#32
  streamLen := 0#32
  inMem := []
  pixMem := []
  host := HostSide.empty

/-- The machine right after reset (R45), of the parameters the test vectors take (assumption 2). -/
def State.reset : State := State.powerOn Config.standard

end Sys2Proof.Machine
end

