-- ==== Sys2Proof/Machine/Ops.lean ====
section
/-!
DEFINITION. The named operations over memory and registers: byte memories, the pixel_buffer_writer, entering an
error and leaving it by START, the end of a pass.
-/
namespace Sys2Proof.Machine

/-! ### Byte memories (20_memory.md R50, R53) -/

/-- The byte at an offset, if one has been written since power-on (R45, R51). An offset that is not listed
has no value (assumption 5). -/
def Memory.read : Memory → Nat → Option Byte
  | [], _ => none
  | (x, b) :: m, a => if x = a then some b else Memory.read m a

/-- `MemWrite(a, 1, b)` (R11), keeping the cells by rising offset. -/
def Memory.write : Memory → Nat → Byte → Memory
  | [], a, b => [(a, b)]
  | (x, c) :: m, a, b =>
    if a < x then (a, b) :: (x, c) :: m
    else if a = x then (a, b) :: m
    else (x, c) :: Memory.write m a b

/-- Bytes written from offset `a` up. -/
def Memory.writeAll : Memory → Nat → List Byte → Memory
  | m, _, [] => m
  | m, a, b :: bs => Memory.writeAll (m.write a b) (a + 1) bs

/-- The canonical form: offsets strictly rising. No value is what an unlisted offset reads as, so no cell can
be redundant. -/
abbrev Memory.wf (m : Memory) : Prop := List.Pairwise (fun c d : Host.Cell => c.1 < d.1) m

/-- The bytes `bs` stand in the memory from offset `a` up. -/
abbrev Memory.Holds (m : Memory) (a : Nat) (bs : List Byte) : Prop :=
  ∀ k : Fin bs.length, m.read (a + k) = some bs[k]

/-- Why a read gives no byte. -/
inductive Halt where
  | fault (r : Fault)
  | refused (r : Refusal)
deriving DecidableEq, Repr

/-- The outcome of a step that stops. -/
def Halt.outcome : Halt → Host.Outcome State Fault Refusal
  | .fault r => .fault r
  | .refused r => .refused r

namespace State

/-- The engine is busy in phases HEADER and TOKENS (R21). -/
abbrev Busy (s : State) : Prop := s.phase = .header ∨ s.phase = .tokens

/-- `MemRead(a, 1)` (R11, R50, R51): a byte of InMem. -/
def inByte (s : State) (a : Nat) : Except Halt Byte :=
  if a < s.cfg.inMemSize then
    match s.inMem.read a with
    | some b => .ok b
    | none => .error (.refused (.inMemUnwritten a))
  else .error (.fault (.engineOutsideInMem a))

/-- `n` bytes of InMem in stream order, from offset `a` (R11, R60). -/
def inBytes (s : State) : Nat → Nat → Except Halt (List Byte)
  | _, 0 => .ok []
  | a, n + 1 =>
    match s.inByte a with
    | .error h => .error h
    | .ok b =>
      match s.inBytes (a + 1) n with
      | .error h => .error h
      | .ok bs => .ok (b :: bs)

/-! ### The cache_controller (41_units.md R131 to R133) -/

/-- Lookup: the pair in slot `i`, changing nothing (R133). -/
def lookup (s : State) (i : Fin 64) : Slot := s.cache.get i

end State

/-- Slot addressing, `hash(v) = v[7:2]` (R131). -/
def hash (v : Byte) : Fin 64 := (v.extractLsb' 2 6).toFin

/-- Fill: `cache[hash(v)] <- (1, v)`, whatever the slot held (R132). -/
def Cache.fill (c : Cache) (v : Byte) : Cache := c.set (hash v) ⟨true, v⟩

namespace State

/-! ### The pixel_buffer_writer (R140) -/

/-- Append one pixel: `MemWrite(out_count, 1, v)`, then `out_count <- out_count + 1` (R140). -/
def appendPixel (s : State) (v : Byte) : State :=
  { s with pixMem := s.pixMem.write s.outCount.toNat v, outCount := s.outCount + 1#32 }

/-- Append the same pixel `k` times, in order (R136, R162). -/
def appendPixels : Nat → Byte → State → State
  | 0, _, s => s
  | k + 1, v, s => appendPixels k v (s.appendPixel v)

/-- `ptr <- ptr + n` (R24). -/
def advance (s : State) (n : Word) : State := { s with ptr := s.ptr + n }

/-- `prev <- v` (R139). -/
def setPrev (s : State) (v : Byte) : State := { s with prev := v }

/-- The fill of a LIT (R132, R163). -/
def fill (s : State) (v : Byte) : State := { s with cache := s.cache.fill v }

end State

/-! ### Errors (60_exceptions.md) -/

/-- The numbers of R240. -/
def ErrorKind.code : ErrorKind → BitVec 3
  | .badMagic => 1#3
  | .unresolvedCacheRef => 2#3
  | .badLength => 3#3
  | .truncatedToken => 4#3
  | .outputOverflow => 5#3

/-! ### What the host may rely on of PixMem (R64; the model's own record, assumption 6) -/

/-- START: the pixels of a pass that left `n` of them unseen stay unseen until a pass whose end the host sees
writes there. -/
def HostSide.startPass (h : HostSide) (n : Nat) : HostSide :=
  { h with synced := false, unseen := if h.synced then h.unseen else ⟨0, n⟩ :: h.unseen }

/-- The host has seen the end of a pass that wrote `n` pixels. -/
def HostSide.sawEnd (h : HostSide) (n : Nat) : HostSide :=
  { h with
    synced := true,
    unseen := (h.unseen.map (Extent.from n)).filter (fun e => decide (e.first < e.past)) }

/-- Power-on: no pixel is left to be seen, and what the memories hold may be other than before. -/
def HostSide.powerOn (h : HostSide) : HostSide :=
  { h with synced := false, unseen := [], powerOns := h.powerOns + 1 }

namespace State

/-- What was last written at a PixMem offset is visible to a host that reads it while the engine is not busy: the
pass that wrote it was followed by a STATUS read that showed its end (R64). -/
abbrev Shown (s : State) (a : Nat) : Prop :=
  (s.host.synced = true ∨ s.outCount.toNat ≤ a) ∧ ∀ e ∈ s.host.unseen, ¬ e.Covers a

/-- Taking an error, `raise E(off)`: the code, the offset and phase ERROR, and no other state (R243, R244). It is
no stop of the model (assumption 4). -/
def raiseError (s : State) (e : ErrorKind) (off : Word) : State :=
  { s with errCode := e.code, errOffset := off, phase := .error }

/-- START, the only way out of ERROR (and of IDLE and DONE): every register but `stream_len` is cleared and
phase becomes HEADER (R193, R249). There is no return from an error. The pixels of the new pass are not
yet visible to the host; those that earlier passes showed it stay so (R64). -/
def startPass (s : State) : State :=
  { s with
    cache := Cache.empty, prev := 0#8, outCount := 0#32, ptr := 0#32, tokenEnd := 0#32, width := 0#32,
    height := 0#32, errCode := 0#3, errOffset := 0#32, phase := .header,
    host := s.host.startPass s.outCount.toNat }

/-- The successful end of a pass: only `phase` is written (R160). -/
def finish (s : State) : State := { s with phase := .done }

/-- Power-on reset: reset values in every register and both memories unwritten (R270). The host's plan and
observations are not the engine's; no pass is left whose pixels could be visible (assumption 13). -/
def powerOnReset (s : State) : State :=
  { State.powerOn s.cfg with host := s.host.powerOn }

end State

end Sys2Proof.Machine
end

