-- ==== Sys2Proof/Machine/Operands.lean ====
section
/-!
DEFINITION. The checks and the arithmetic that the meanings share (41_units.md; 40_header_footer.md R111, R113).
The assembly of a token's operands from its bytes is in Decode.lean (R88).
-/
namespace Sys2Proof.Machine

/-- The delta_accumulator: `(prev + d) mod 256` (R137). -/
def accumulate (prev : Byte) (diff : Int) : Byte := BitVec.ofInt 8 ((prev.toNat : Int) + diff)

/-- The footer_sentinel_detector: `end = N − 8` (R113), below `ptr` where N is below 20 (R115;
assumption 8). -/
def footerBound (n : Word) : Word := n - BitVec.ofNat 32 footerLen

namespace State

/-- A second byte at `ptr + 1` lies inside the token region; the comparison is exact (R161). -/
abbrev SecondByteInside (s : State) : Prop := s.ptr.toNat + 1 < s.tokenEnd.toNat

/-- `Room(k)`: `k` more pixels fit in PixMem; the sum is exact (R141). -/
abbrev Room (s : State) (k : Nat) : Prop := s.outCount.toNat + k ≤ s.cfg.pixMemSize

/-- The stream holds a header and fits InMem (R111). -/
abbrev LengthOk (s : State) : Prop := headerLen ≤ s.streamLen.toNat ∧ s.streamLen.toNat ≤ s.cfg.inMemSize

end State

/-- A token's pixels, or OUTPUT_OVERFLOW with nothing written (R141): `k` is its pixel count and `go` its effect. -/
def withRoom (k : Nat) (go : State → State) (s : State) : Host.Outcome State Fault Refusal :=
  if s.Room k then .next (go s) else .next (s.raiseError .outputOverflow s.ptr)

/-- A two-byte token: TRUNCATED_TOKEN before any other effect where its second byte is at or past `end`
(R161, R245). -/
def withSecondByte (go : State → Host.Outcome State Fault Refusal) (s : State) :
    Host.Outcome State Fault Refusal :=
  if s.SecondByteInside then go s else .next (s.raiseError .truncatedToken s.ptr)

end Sys2Proof.Machine
end

