-- ==== Sys2Proof/Machine/Header.lean ====
section
/-!
DEFINITION. The meanings of the two directives: HDR is the header step (40_header_footer.md R110), FTR is the
step that finds `ptr` at the bound the footer sets (R113, R114; 42_tokens.md R160).
-/
namespace Sys2Proof.Machine

/-- The header_codec and the footer_sentinel_detector: load the dimensions, fix `end`, point at the first
token (R110, R112, R113). -/
def State.loadHeader (s : State) (width height : Word) : State :=
  { s with
    width := width, height := height, tokenEnd := footerBound s.streamLen,
    ptr := BitVec.ofNat 32 headerLen, phase := .tokens }

/-- HDR (R110): BAD_LENGTH, or the header's load. Bytes whose magic differs decode to no HDR; the engine
enters BAD_MAGIC for them (R111, `State.fetch`). -/
def execHdr (width height : Word) (s : State) : Host.Outcome State Fault Refusal :=
  if s.LengthOk then .next (s.loadHeader width height) else .next (s.raiseError .badLength 0#32)

/-- FTR: the pass finishes at the footer, whose bytes are never read (R114, R160; assumption 10). -/
def execFtr (s : State) : Host.Outcome State Fault Refusal := .next s.finish

end Sys2Proof.Machine
end

