-- ==== Sys2Proof/Machine/Tokens.lean ====
section
/-!
DEFINITION. The meanings of the four tokens (42_tokens.md R162 to R165). Every check precedes every write, so an
error leaves the state of the last completed token (R243).
-/
namespace Sys2Proof.Machine

/-- RUN (R162): `len` pixels of the previous brightness. -/
def execRun (len : Nat) (s : State) : Host.Outcome State Fault Refusal :=
  withSecondByte (withRoom len fun s => (s.appendPixels len s.prev).advance 2#32) s

/-- LIT (R163): fill the value's slot and append it. The pad is ignored (R85). -/
def execLit (_pad : BitVec 6) (value : Byte) (s : State) : Host.Outcome State Fault Refusal :=
  withSecondByte
    (withRoom 1 fun s => (((s.fill value).appendPixel value).setPrev value).advance 2#32) s

/-- CREF (R164): append the value of slot `index`; an empty slot is checked before room (R245). -/
def execCref (index : Fin 64) (s : State) : Host.Outcome State Fault Refusal :=
  if (s.lookup index).valid then
    withRoom 1
      (fun s => ((s.appendPixel (s.lookup index).value).setPrev (s.lookup index).value).advance 1#32) s
  else .next (s.raiseError .unresolvedCacheRef s.ptr)

/-- DELTA (R165): append the previous brightness plus `diff`, modulo 256. -/
def execDelta (diff : Int) (s : State) : Host.Outcome State Fault Refusal :=
  withRoom 1
    (fun s => ((s.appendPixel (accumulate s.prev diff)).setPrev (accumulate s.prev diff)).advance 1#32) s

end Sys2Proof.Machine
end

