-- ==== Sys2Proof/Machine/Dispatch.lean ====
section
/-! DEFINITION. Which meaning each instruction has: one arm per row of spec/opcode_table.json. -/
namespace Sys2Proof.Machine

def exec (i : Instr) (s : State) : Host.Outcome State Fault Refusal :=
  match i with
  | .run len => Sys2Proof.Machine.execRun len s
  | .lit pad value => Sys2Proof.Machine.execLit pad value s
  | .cref index => Sys2Proof.Machine.execCref index s
  | .delta diff => Sys2Proof.Machine.execDelta diff s
  | .hdr width height => Sys2Proof.Machine.execHdr width height s
  | .ftr => Sys2Proof.Machine.execFtr s

end Sys2Proof.Machine
end

