-- ==== Sys2Proof/Machine/Fetch.lean ====
section
/-!
DEFINITION. Fetching: which bytes of InMem the engine reads for its next step and what the decoder makes of
them (20_memory.md R52; 40_header_footer.md R111; 42_tokens.md R160, R161).
-/
namespace Sys2Proof.Machine

/-- What the engine's next step has to do. -/
inductive Fetched where
  /-- No pass is running: the engine makes no step (R255). -/
  | nothing
  /-- Run this instruction. -/
  | run (i : Instr)
  /-- Enter this error (R243). -/
  | raise (e : ErrorKind) (off : Word)
  /-- The bytes cannot be read (R51). -/
  | halt (h : Halt)
deriving DecidableEq, Repr

/-- The error a rejection of the decoder raises (R111, R161). -/
def errorOf : DecodeError → ErrorKind
  | .badMagic => .badMagic
  | .shortHeader => .badLength
  | .truncatedToken => .truncatedToken

/-- The decoder's answer on the bytes that were read; `off` is the offset an error records (R244). -/
def decoded (r : Region) (bs : List Byte) (off : Word) : Fetched :=
  match decode r bs with
  | .ok (i, _) => .run i
  | .error e => .raise (errorOf e) off

namespace State

/-- The header step's reads: no byte before the length is checked, and the dimensions only after the magic
(R111, R112). -/
def fetchHeader (s : State) : Fetched :=
  if s.LengthOk then
    match s.inBytes 0 4 with
    | .error h => .halt h
    | .ok magic =>
      if magic = magicBytes then
        match s.inBytes 4 8 with
        | .error h => .halt h
        | .ok dims => decoded .preamble (magic ++ dims) 0#32
      else decoded .preamble magic 0#32
  else .raise .badLength 0#32

/-- A token step's reads: the first byte, and the second byte of a two-byte token only where it lies below
`end` (R160, R161). -/
def fetchToken (s : State) : Fetched :=
  match s.inByte s.ptr.toNat with
  | .error h => .halt h
  | .ok b0 =>
    if (tagOf b0).bytes = 2 ∧ s.SecondByteInside then
      match s.inByte (s.ptr.toNat + 1) with
      | .error h => .halt h
      | .ok b1 => decoded .token [b0, b1] s.ptr
    else decoded .token [b0] s.ptr

/-- The next step's work, by phase. At `ptr ≥ end` the footer is met and no byte is read (R160).
Where no pass runs there is nothing to do (R255; assumptions 12 and 15). -/
def fetch (s : State) : Fetched :=
  match s.phase with
  | .idle => .nothing
  | .header => s.fetchHeader
  | .tokens =>
    if s.tokenEnd.toNat ≤ s.ptr.toNat then decoded .trailer [] s.ptr else s.fetchToken
  | .done => .nothing
  | .error => .nothing

/-- `s` with the bytes of `r` placed where the engine reads its next instruction of that region: a pass at the
header step, at the token at offset 12, or at the footer at offset 12 (assumption 11). -/
def placed (s : State) (r : Region) (bs : List Byte) : State :=
  match r with
  | .preamble =>
    { s with
      phase := .header, streamLen := 20#32, inMem := s.inMem.writeAll 0 bs,
      host := { s.host with agenda := [] } }
  | .token =>
    { s with
      phase := .tokens, ptr := 12#32, tokenEnd := 14#32, streamLen := 22#32,
      inMem := s.inMem.writeAll 12 bs, host := { s.host with agenda := [] } }
  | .trailer =>
    { s with
      phase := .tokens, ptr := 12#32, tokenEnd := 12#32, streamLen := 20#32,
      inMem := s.inMem.writeAll 12 bs, host := { s.host with agenda := [] } }

end State

end Sys2Proof.Machine
end

