-- ==== Sys2Proof/Machine/Flags.lean ====
section
/-!
DEFINITION. The engine has no condition codes and no token sets a flag (10_state.md R32). Its only status
indications are the STATUS bits, functions of `phase` and `err_code` (R35).
-/
namespace Sys2Proof.Machine.State

/-- STATUS bit 0 (R35). -/
def busyBit (s : State) : Bool := decide s.Busy

/-- STATUS bit 1 (R35). -/
def doneBit (s : State) : Bool := decide (s.phase = .done)

/-- STATUS bit 2 (R35). -/
def errBit (s : State) : Bool := decide (s.phase = .error)

/-- STATUS: reserved zeros, ERR_CODE in bits 6 to 4, a reserved zero, ERR, DONE, BUSY (R35). -/
def statusWord (s : State) : Word :=
  0#25 ++ s.errCode ++ 0#1 ++ BitVec.ofBool s.errBit ++ BitVec.ofBool s.doneBit ++ BitVec.ofBool s.busyBit

end Sys2Proof.Machine.State
end

