-- ==== Sys2Proof/Machine/HostPort.lean ====
section
/-!
DEFINITION. The host's side: the CSR window (10_state.md R33 to R44), the host's actions (43_host_interface.md
R190 to R197; 20_memory.md R62 to R65), the launch sequence (70_reset_and_hazards.md R275) and the placement of
the three spaces on a bus (R56).
-/
namespace Sys2Proof.Machine

/-- The registers of the CSR window (R33). -/
inductive Csr where
  | ctrl | status | streamLen | width | height | outCount | tokenPtr | tokenEnd | errOffset | prev
  | cache (i : Fin 64)
deriving DecidableEq, Repr

/-- A register's offset in the window (R33). -/
def Csr.offset : Csr → Nat
  | .ctrl => 0x000
  | .status => 0x004
  | .streamLen => 0x008
  | .width => 0x00C
  | .height => 0x010
  | .outCount => 0x014
  | .tokenPtr => 0x018
  | .tokenEnd => 0x01C
  | .errOffset => 0x020
  | .prev => 0x024
  | .cache i => 0x100 + 4 * i

/-- The register at an offset of the window, if one is mapped there (R33). -/
def Csr.ofOffset (o : Nat) : Option Csr :=
  if o = 0x000 then some .ctrl
  else if o = 0x004 then some .status
  else if o = 0x008 then some .streamLen
  else if o = 0x00C then some .width
  else if o = 0x010 then some .height
  else if o = 0x014 then some .outCount
  else if o = 0x018 then some .tokenPtr
  else if o = 0x01C then some .tokenEnd
  else if o = 0x020 then some .errOffset
  else if o = 0x024 then some .prev
  else if h : 0x100 ≤ o ∧ o < 0x200 ∧ o % 4 = 0 then some (.cache ⟨(o - 0x100) / 4, by omega⟩)
  else none

/-- A cache slot as the host sees it: VALID in bit 8, VALUE in bits 7 to 0 (R44). -/
def Slot.word (c : Slot) : Word := 0#23 ++ BitVec.ofBool c.valid ++ c.value

namespace State

/-- What a register reads as (R33 to R44). -/
def csr (s : State) : Csr → Word
  | .ctrl => 0#32
  | .status => s.statusWord
  | .streamLen => s.streamLen
  | .width => s.width
  | .height => s.height
  | .outCount => s.outCount
  | .tokenPtr => s.ptr
  | .tokenEnd => s.tokenEnd
  | .errOffset => s.errOffset
  | .prev => 0#24 ++ s.prev
  | .cache i => (s.lookup i).word

/-- What a 32-bit aligned read at an offset of the window returns; an unmapped offset reads 0 (R190). -/
def csrAt (s : State) (o : Nat) : Word :=
  match Csr.ofOffset o with
  | some r => s.csr r
  | none => 0#32

/-- The effect of a write to CTRL: START when bit 0 is 1 and the engine is not busy (R34, R193, R194). -/
def writeCtrl (s : State) (w : Word) : State :=
  if w[0] = true ∧ ¬ s.Busy then s.startPass else s

/-- The effect of a write to STREAM_LEN: ignored while busy (R36, R192). -/
def writeStreamLen (s : State) (w : Word) : State :=
  if s.Busy then s else { s with streamLen := w }

/-- A 32-bit aligned write at an offset of the window; every register but CTRL and STREAM_LEN ignores it, and
so does an unmapped offset (R191). -/
def csrStore (s : State) (o : Nat) (w : Word) : State :=
  match Csr.ofOffset o with
  | some .ctrl => s.writeCtrl w
  | some .streamLen => s.writeStreamLen w
  | some .status => s
  | some .width => s
  | some .height => s
  | some .outCount => s
  | some .tokenPtr => s
  | some .tokenEnd => s
  | some .errOffset => s
  | some .prev => s
  | some (.cache _) => s
  | none => s

/-- The host has received a datum. -/
def observe (s : State) (d : HostDatum) : State :=
  { s with host := { s.host with observed := d :: s.host.observed } }

/-- A free value is drawn and received: any byte (R64, assumption 6). -/
def observeFree (s : State) : State :=
  { s with
    host := { s.host with
      observed := .byte (Config.freeByte s.host.draws) :: s.host.observed, draws := s.host.draws + 1 } }

/-- A CSR read's effect on the host's side: the datum, and, where it is STATUS showing DONE or ERR, the
visibility of the pass's pixels from then on (R64). -/
def csrLoad (s : State) (o : Nat) : State :=
  let t := s.observe (.word (s.csrAt o))
  if Csr.ofOffset o = some .status ∧ (s.doneBit ∨ s.errBit) then
    { t with host := t.host.sawEnd s.outCount.toNat }
  else t

end State

/-- A CSR access of `width` bytes at `offset`, where R62 admits it; beyond the window it is refused
(assumption 9). -/
def csrAccess (width offset : Nat) (go : State → State) (s : State) :
    Host.Outcome State Fault Refusal :=
  if width ≠ 4 then .refused (.csrWidth width)
  else if offset % 4 ≠ 0 then .refused (.csrMisaligned offset)
  else if offset < Config.csrWindow then .next (go s)
  else .refused (.csrOutside offset)

/-- A host write of one InMem byte (R50, R65). -/
def hostInMemWrite (offset : Nat) (b : Byte) (s : State) : Host.Outcome State Fault Refusal :=
  if s.Busy then .refused (.inMemWriteWhileBusy offset)
  else if offset < s.cfg.inMemSize then .next { s with inMem := s.inMem.write offset b }
  else .refused (.inMemOutside offset)

/-- What an InMem offset holds: the byte written there, or its power-on contents (R45, R63; assumption 7). -/
def State.inMemByte (s : State) (offset : Nat) : Byte :=
  (s.inMem.read offset).getD (Config.powerOnByte s.host.powerOns offset)

/-- A host read of one InMem byte, idempotent and without side effect, while the engine is busy too: nothing
writes InMem then (R50, R63, R65; assumption 7). -/
def hostInMemRead (offset : Nat) (s : State) : Host.Outcome State Fault Refusal :=
  if offset < s.cfg.inMemSize then .next (s.observe (.byte (s.inMemByte offset)))
  else .refused (.inMemOutside offset)

/-- A host read of one PixMem byte: the pixel where it is visible; any byte while the engine is busy, before a
STATUS read has shown the end of the pass that wrote it, and where none was written (R54, R64; assumption 6). -/
def hostPixMemRead (offset : Nat) (s : State) : Host.Outcome State Fault Refusal :=
  if offset < s.cfg.pixMemSize then
    match s.pixMem.read offset with
    | some b => .next (if ¬ s.Busy ∧ s.Shown offset then s.observe (.byte b) else s.observeFree)
    | none => .next s.observeFree
  else .refused (.pixMemOutside offset)

/-- One action of the host, which takes effect at once (R190 to R195; assumption 17). -/
def hostAct (op : HostOp) (s : State) : Host.Outcome State Fault Refusal :=
  match op with
  | .csrRead width offset => csrAccess width offset (fun s => s.csrLoad offset) s
  | .csrWrite width offset value => csrAccess width offset (fun s => s.csrStore offset value) s
  | .inMemWrite offset value => hostInMemWrite offset value s
  | .inMemRead offset => hostInMemRead offset s
  | .pixMemRead offset => hostPixMemRead offset s

/-- The events that load a stream's bytes from offset `a` up (R275, step 1). -/
def loadEvents : Nat → List Byte → List Event
  | _, [] => []
  | a, b :: bs => .host (.inMemWrite a b) :: loadEvents (a + 1) bs

/-- A START command (R193). -/
def startEvent : Event := .host (.csrWrite 4 0x000 1#32)

/-- Steps 1 to 3 of the launch sequence: the bytes, STREAM_LEN, START (R275). -/
def launch (bs : List Byte) : List Event :=
  loadEvents 0 bs ++ [.host (.csrWrite 4 0x008 (BitVec.ofNat 32 bs.length)), startEvent]

/-- The three address spaces (R55, R56). -/
inductive Space where
  | csr | inMem | pixMem
deriving DecidableEq, Repr

/-- The platform's placement keeps the three windows apart (R56: none aliases another). -/
abbrev WindowsApart (c : Config) : Prop :=
  (c.csrBase + Config.csrWindow ≤ c.inMemBase ∨ c.inMemBase + c.inMemSize ≤ c.csrBase) ∧
  (c.csrBase + Config.csrWindow ≤ c.pixMemBase ∨ c.pixMemBase + c.pixMemSize ≤ c.csrBase) ∧
  (c.inMemBase + c.inMemSize ≤ c.pixMemBase ∨ c.pixMemBase + c.pixMemSize ≤ c.inMemBase)

/-- The space and the offset in it that a bus address reaches (R56; assumption 18). -/
def busTarget (c : Config) (a : Nat) : Option (Space × Nat) :=
  if c.csrBase ≤ a ∧ a < c.csrBase + Config.csrWindow then some (.csr, a - c.csrBase)
  else if c.inMemBase ≤ a ∧ a < c.inMemBase + c.inMemSize then some (.inMem, a - c.inMemBase)
  else if c.pixMemBase ≤ a ∧ a < c.pixMemBase + c.pixMemSize then some (.pixMem, a - c.pixMemBase)
  else none

end Sys2Proof.Machine
end

