-- ==== Sys2Proof/Machine/Engine.lean ====
section
/-!
DEFINITION. One step of the engine, and whose turn it is (40_header_footer.md R110; 42_tokens.md R160;
43_host_interface.md R196; 60_exceptions.md R255; 70_reset_and_hazards.md R270).
-/
namespace Sys2Proof.Machine

/-- Doing what was fetched. -/
def perform (f : Fetched) (s : State) : Host.Outcome State Fault Refusal :=
  match f with
  | .nothing => .next s
  | .run i => exec i s
  | .raise e off => .next (s.raiseError e off)
  | .halt h => h.outcome

/-- One engine step: the header step, a token step, or, where no pass runs, nothing (R110, R160, R255;
assumption 19). -/
def engineStep (s : State) : Host.Outcome State Fault Refusal := perform s.fetch s

/-- One event. -/
def happen (e : Event) (s : State) : Host.Outcome State Fault Refusal :=
  match e with
  | .host op => hostAct op s
  | .engine => engineStep s
  | .powerOn => .next s.powerOnReset

/-- `s` with `rest` still to come. -/
def State.withAgenda (s : State) (rest : List Event) : State :=
  { s with host := { s.host with agenda := rest } }

/-- The next event of the agenda; when none is left, the engine steps (R196; assumption 3). -/
def advanceOne (s : State) : Host.Outcome State Fault Refusal :=
  match s.host.agenda with
  | [] => engineStep s
  | e :: rest => happen e (s.withAgenda rest)

end Sys2Proof.Machine
end

