-- ==== Sys2Proof/Machine/Step.lean ====
section
/-! DEFINITION. The machine's step, and a state whose next step runs a given instruction. -/
namespace Sys2Proof.Machine

/-- One step: the agenda's next event, or an engine step. -/
def step (s : State) : Host.Outcome State Fault Refusal := advanceOne s

/-- `s` with the instruction whose table bits are `w` placed where the next step fetches (assumption 11). -/
def State.withFetchWord (s : State) (nbits w : Nat) : State :=
  s.placed (tableRegion nbits) (tableBytes nbits w)

end Sys2Proof.Machine
end

