-- ==== Sys2Proof/Machine/Producer.lean ====
section
/-!
DEFINITION. The reference stream producer (48_reference_encoder.md R210 to R224). It is NOT hardware and no step
uses it (R6); claims about round trips and cache trajectories are stated with it (assumption 20).
-/
namespace Sys2Proof.Machine.Producer

/-- The brightness of an RGB triple (R210). -/
def luma (r g b : Byte) : Byte := BitVec.ofNat 8 ((r.toNat * 30 + g.toNat * 59 + b.toNat * 11) / 100)

/-- The running state of an encode (R211). -/
structure Running where
  prev : Byte
  cache : Cache
deriving DecidableEq, Repr

/-- `prev = 0` and every slot empty (R211). -/
def Running.start : Running := ⟨0#8, Cache.empty⟩

/-- The run-length scan: how many values at the front equal `prev`, at most the cap (R214, step 1). -/
def runScan (prev : Byte) (pixels : List Byte) : Nat :=
  min encRunCap (pixels.takeWhile (fun v => v == prev)).length

/-- The token for one value, by the first of steps 2 to 5 that matches (R213, R215 to R218). -/
def single (r : Running) (v : Byte) : Instr :=
  if (r.cache.get (hash v)).valid = false then .lit 0#6 v
  else if (r.cache.get (hash v)).value = v then .cref (hash v)
  else if -32 ≤ (v - r.prev).toInt ∧ (v - r.prev).toInt ≤ 31 then .delta (v - r.prev).toInt
  else .lit 0#6 v

/-- The running state after that token: a literal fills its slot, and `prev` is the value (R215 to R218). -/
def Running.after (r : Running) (v : Byte) : Running :=
  match single r v with
  | .lit _ _ => ⟨v, r.cache.fill v⟩
  | _ => ⟨v, r.cache⟩

/-- The tokens of a pixel sequence, each with the running state after it (R219). `fuel` bounds the tokens; the
number of pixels is enough. -/
def trace : Nat → Running → List Byte → List (Instr × Running)
  | 0, _, _ => []
  | _ + 1, _, [] => []
  | fuel + 1, r, v :: rest =>
    if 2 ≤ runScan r.prev (v :: rest) then
      (.run (runScan r.prev (v :: rest)), r) ::
        trace fuel r ((v :: rest).drop (runScan r.prev (v :: rest)))
    else (single r v, r.after v) :: trace fuel (r.after v) rest

/-- The trace of a whole encode (R211, R219). -/
def traceOf (pixels : List Byte) : List (Instr × Running) := trace pixels.length Running.start pixels

/-- The tokens of a whole encode (R219). -/
def tokensOf (pixels : List Byte) : List Instr := (traceOf pixels).map Prod.fst

/-- The stream for a pixel sequence: header, tokens, footer (R212, R221, R224). -/
def stream (width height : Word) (pixels : List Byte) : List Byte :=
  encode (.hdr width height) ++ (tokensOf pixels).flatMap encode ++ encode .ftr

end Sys2Proof.Machine.Producer
end

