-- ==== Sys2Proof/Safety.lean ====
section
/-!
DEFINITION. What the claims mean by a legal state and by a pass that cannot stop (R27, R28, R30, R42, R53, R113,
R139, R240, R275).
-/
namespace Sys2Proof.Machine

/-- A slot that is valid holds a value of its own group of four, and an empty slot holds 0 (R27, R44). -/
abbrev Slot.Legal (c : Slot) (i : Fin 64) : Prop :=
  (c.valid = true → hash c.value = i) ∧ (c.valid = false → c.value = 0#8)

/-- A memory in its canonical form, within its size (R50, R53). -/
abbrev Memory.Legal (m : Memory) (size : Nat) : Prop := m.wf ∧ ∀ c ∈ m, c.1 < size

/-- The states of token_demux: what holds after reset and is kept by every step. -/
structure State.Inv (s : State) : Prop where
  /-- The parameters are in the ranges of R8. -/
  sizes : s.cfg.SizesInRange
  /-- InMem is canonical and within `IN_MEM_SIZE`. -/
  inMem : s.inMem.Legal s.cfg.inMemSize
  /-- PixMem is canonical and within `PIX_MEM_SIZE`. -/
  pixMem : s.pixMem.Legal s.cfg.pixMemSize
  /-- The cache invariant (R27, R44). -/
  slots : ∀ i : Fin 64, (s.lookup i).Legal i
  /-- `out_count` never exceeds `PIX_MEM_SIZE` (R28). -/
  count : s.outCount.toNat ≤ s.cfg.pixMemSize
  /-- The pixels of the pass have been written (R53, R54). -/
  written : ∀ a, a < s.outCount.toNat → (s.pixMem.read a).isSome = true
  /-- `prev` is the last pixel of the pass, and 0 before the first (R139, R193). -/
  last :
    if s.outCount = 0#32 then s.prev = 0#8 else s.pixMem.read (s.outCount.toNat - 1) = some s.prev
  /-- Before the header step every register of the pass is as reset and START leave it (R45, R193). -/
  fresh : s.phase = .idle ∨ s.phase = .header →
    s.ptr = 0#32 ∧ s.tokenEnd = 0#32 ∧ s.outCount = 0#32 ∧ s.width = 0#32 ∧ s.height = 0#32 ∧
      s.cache = Cache.empty
  /-- `ptr` is in the token region or at its bound; a short stream's bound lies below 12 (R24, R113, R115). -/
  region : s.phase = .tokens ∨ s.phase = .done →
    12 ≤ s.ptr.toNat ∧ (s.ptr.toNat ≤ s.tokenEnd.toNat ∨ s.ptr.toNat = 12)
  /-- While tokens run, `end` is eight below the length of a stream that fits (R113). -/
  bound : s.phase = .tokens → s.LengthOk ∧ s.tokenEnd.toNat + 8 = s.streamLen.toNat
  /-- A pass ends in DONE only at the bound (R160). -/
  finished : s.phase = .done → s.tokenEnd.toNat ≤ s.ptr.toNat
  /-- No error is recorded outside phase ERROR (R30, R42). -/
  noError : s.phase ≠ .error → s.errCode = 0#3 ∧ s.errOffset = 0#32
  /-- In phase ERROR the code is one of the five and the offset is where `ptr` stands (R240, R244). -/
  someError : s.phase = .error → 1 ≤ s.errCode.toNat ∧ s.errCode.toNat ≤ 5 ∧ s.errOffset = s.ptr

/-- Every byte of the stream has been written, so no engine read of the pass is refused (R51, R275). -/
abbrev State.Loaded (s : State) : Prop := ∀ a, a < s.streamLen.toNat → (s.inMem.read a).isSome = true

/-- `k` steps of the machine, stopping at the first fault or refusal. -/
abbrev runs (k : Nat) (s : State) : Host.Outcome State Fault Refusal := Host.Core.run Sys2Proof.core k s

/-- The pass is over (R166). -/
abbrev State.Over (s : State) : Prop := s.phase = .done ∨ s.phase = .error

end Sys2Proof.Machine
end

