-- ==== Sys2Proof/Certificates/Slice0/Obligations.lean ====
section
/-!
DEFINITION. The statements for the provers. An outcome is written out field by field: what an equation with
`{ s with … }` does not name is unchanged. `runs k s` is `k` steps.
-/

open Sys2Proof Sys2Proof.Machine

/-! ### Encoding -/

/-- R92, R93, R81 to R87: decoding the bytes of a well-formed instruction gives it back, whatever follows. -/
def Obligations.DecodeInvertsEncode : Prop :=
  ∀ (i : Instr) (rest : List Byte), i.wf = true → decode i.region (encode i ++ rest) = .ok (i, rest)

/-- R83 to R90: every bit of the bytes that decode to a token or a header is an operand's or is fixed. -/
def Obligations.EncodeInvertsDecode : Prop :=
  ∀ (r : Region) (bs rest : List Byte) (i : Instr), r ≠ .trailer → decode r bs = .ok (i, rest) →
    i.wf = true ∧ i.region = r ∧ encode i ++ rest = bs

/-- R92, R93: a text of tokens assembles to bytes that disassemble to the same tokens; a text has bytes exactly
where no operand of it is out of range, and they are its lines' bytes in order; and every byte sequence
disassembles, with at most the first byte of a last token left over. -/
def Obligations.DisassembleInvertsAssemble : Prop :=
  (∀ is : List Instr, (∀ i ∈ is, i.wf = true ∧ i.region = .token) →
    ∃ bs, assemble (is.map AsmLine.instr) = some bs ∧ bs = is.flatMap encode ∧ disassemble bs = (is, [])) ∧
  (∀ ls : List AsmLine, assemble ls = none ↔ ∃ i, AsmLine.instr i ∈ ls ∧ i.wf = false) ∧
  (∀ (ls : List AsmLine) (bs : List Byte), assemble ls = some bs →
    bs = ls.flatMap fun
      | .instr i => encode i
      | .bytes raw => raw) ∧
  (∀ bs : List Byte, (disassemble bs).1.flatMap encode ++ (disassemble bs).2 = bs ∧
    (disassemble bs).2.length ≤ 1)

/-- R89: every first byte decodes to exactly one token, of the length and operands of the opcode map. -/
def Obligations.FirstByteDecodesToOneToken : Prop :=
  ∀ (b0 b1 : Byte) (rest : List Byte),
    (b0.toNat < 0x40 → ∃ i : Fin 64, i.val = b0.toNat ∧
      decode .token (b0 :: b1 :: rest) = .ok (.cref i, b1 :: rest)) ∧
    (0x40 ≤ b0.toNat → b0.toNat < 0x80 →
      decode .token (b0 :: b1 :: rest) = .ok (.delta ((b0.toNat : Int) - 0x40 - 32), b1 :: rest)) ∧
    (0x80 ≤ b0.toNat → b0.toNat < 0xC0 →
      decode .token (b0 :: b1 :: rest) = .ok (.run ((b0.toNat - 0x80) * 256 + b1.toNat), rest)) ∧
    (0xC0 ≤ b0.toNat → ∃ p : BitVec 6, p.toNat = b0.toNat - 0xC0 ∧
      decode .token (b0 :: b1 :: rest) = .ok (.lit p b1, rest))

/-- R88: the DELTA field is biased by 32, and equally a two's-complement field with its top bit inverted. -/
def Obligations.DeltaFieldIsBiased : Prop :=
  ∀ b0 : Byte, deltaDiff b0 = ((b0.toNat % 64 : Nat) : Int) - 32 ∧
    deltaDiff b0 = (lowSix b0 ^^^ 0b100000#6).toInt

/-- R84 to R87, R81: words written out from the encodings, each the instruction it stands for. -/
def Obligations.SpecWordsDecode : Prop :=
  decode .token [0x83#8, 0xFF#8] = .ok (.run 1023, []) ∧
  decode .token [0xC5#8, 0x0A#8] = .ok (.lit 5#6 10#8, []) ∧
  decode .token [0x21#8] = .ok (.cref 33, []) ∧
  decode .token [0x7F#8] = .ok (.delta 31, []) ∧
  decode .preamble
      [0x66#8, 0x6D#8, 0x69#8, 0x66#8, 0x12#8, 0x34#8, 0x56#8, 0x78#8, 0x9A#8, 0xBC#8, 0xDE#8, 0xF0#8] =
    .ok (.hdr 0x12345678#32 0x9ABCDEF0#32, [])

/-- The decoder's own names (the model's placing of the checks of R111 and R161, assumption 12): a wrong magic, even
where fewer than 12 bytes stand; a header cut short; a two-byte token without its second byte. The engine checks the
length before it decodes a header (R245). -/
def Obligations.BadBytesRejectedByName : Prop :=
  (∀ (ms rest : List Byte), ms.length = 4 → ms ≠ magicBytes →
    decode .preamble (ms ++ rest) = .error .badMagic) ∧
  (∀ bs : List Byte, bs.length < 8 → decode .preamble (magicBytes ++ bs) = .error .shortHeader) ∧
  (∀ b0 : Byte, 0x80 ≤ b0.toNat → decode .token [b0] = .error .truncatedToken)

/-! ### A step runs the decoded instruction -/

/-- R110, R160, R196: with no event planned, or an engine event (assumption 3), the engine steps; and where the bytes it fetches
decode to a well-formed instruction, that step is the instruction's meaning. -/
def Obligations.StepRunsDecodedInstr : Prop :=
  (∀ s : State, s.host.agenda = [] → step s = engineStep s) ∧
  (∀ (s : State) (rest : List Event), s.host.agenda = .engine :: rest →
    step s = engineStep { s with host := { s.host with agenda := rest } }) ∧
  (∀ (s : State) (i : Instr) (bs : List Byte), s.phase = .tokens → i.wf = true → i.region = .token →
    bs.length = i.bytes → s.ptr.toNat + i.bytes ≤ s.tokenEnd.toNat → s.tokenEnd.toNat ≤ s.cfg.inMemSize →
    s.inMem.Holds s.ptr.toNat bs → decode .token bs = .ok (i, []) → engineStep s = exec i s) ∧
  (∀ (s : State) (i : Instr) (bs : List Byte), s.phase = .header → i.wf = true → bs.length = 12 →
    12 ≤ s.streamLen.toNat → s.streamLen.toNat ≤ s.cfg.inMemSize → s.inMem.Holds 0 bs →
    decode .preamble bs = .ok (i, []) → engineStep s = exec i s) ∧
  (∀ s : State, s.phase = .tokens → s.tokenEnd.toNat ≤ s.ptr.toNat → engineStep s = exec .ftr s)

/-- R255: in phases IDLE, DONE and ERROR the engine makes no step and keeps all its state. -/
def Obligations.IdleEngineKeepsState : Prop :=
  ∀ s : State, s.phase = .idle ∨ s.phase = .done ∨ s.phase = .error → engineStep s = .next s

/-! ### The instructions -/

/-- R162: RUN appends `len` copies of the previous brightness, or raises TRUNCATED_TOKEN, then OUTPUT_OVERFLOW;
and a RUN token's two bytes at `ptr` run it, with the length they give. -/
def Obligations.RunRepeatsPrev : Prop :=
  ∀ (s : State) (len : Nat), s.cfg.SizesInRange →
    (s.ptr.toNat + 1 < s.tokenEnd.toNat → s.outCount.toNat + len ≤ s.cfg.pixMemSize →
      ∃ m : Memory,
        exec (.run len) s =
          .next { s with
            pixMem := m, outCount := s.outCount + BitVec.ofNat 32 len, ptr := s.ptr + 2#32 } ∧
        ∀ a, m.read a =
          if s.outCount.toNat ≤ a ∧ a < s.outCount.toNat + len then some s.prev else s.pixMem.read a) ∧
    (s.tokenEnd.toNat ≤ s.ptr.toNat + 1 →
      exec (.run len) s = .next { s with errCode := 4#3, errOffset := s.ptr, phase := .error }) ∧
    (s.ptr.toNat + 1 < s.tokenEnd.toNat → s.cfg.pixMemSize < s.outCount.toNat + len →
      exec (.run len) s = .next { s with errCode := 5#3, errOffset := s.ptr, phase := .error }) ∧
    (∀ b0 b1 : Byte, s.phase = .tokens → s.ptr.toNat + 1 < s.tokenEnd.toNat →
      s.tokenEnd.toNat ≤ s.cfg.inMemSize → s.inMem.Holds s.ptr.toNat [b0, b1] →
      0x80 ≤ b0.toNat → b0.toNat < 0xC0 → len = (b0.toNat - 0x80) * 256 + b1.toNat →
      engineStep s = exec (.run len) s)

/-- R163: LIT fills the value's slot, appends it and makes it `prev`, whatever the pad; or raises
TRUNCATED_TOKEN, then OUTPUT_OVERFLOW; and a LIT token's two bytes at `ptr` run it. -/
def Obligations.LitFillsAndAppends : Prop :=
  ∀ (s : State) (pad : BitVec 6) (v : Byte),
    (s.ptr.toNat + 1 < s.tokenEnd.toNat → s.outCount.toNat + 1 ≤ s.cfg.pixMemSize →
      ∃ (c : Cache) (m : Memory),
        exec (.lit pad v) s =
          .next { s with
            cache := c, pixMem := m, outCount := s.outCount + 1#32, prev := v, ptr := s.ptr + 2#32 } ∧
        (∀ i : Fin 64, c.get i = if i.val = v.toNat / 4 then ⟨true, v⟩ else s.cache.get i) ∧
        ∀ a, m.read a = if a = s.outCount.toNat then some v else s.pixMem.read a) ∧
    (s.tokenEnd.toNat ≤ s.ptr.toNat + 1 →
      exec (.lit pad v) s = .next { s with errCode := 4#3, errOffset := s.ptr, phase := .error }) ∧
    (s.ptr.toNat + 1 < s.tokenEnd.toNat → s.cfg.pixMemSize < s.outCount.toNat + 1 →
      exec (.lit pad v) s = .next { s with errCode := 5#3, errOffset := s.ptr, phase := .error }) ∧
    (∀ b0 : Byte, s.phase = .tokens → s.ptr.toNat + 1 < s.tokenEnd.toNat →
      s.tokenEnd.toNat ≤ s.cfg.inMemSize → s.inMem.Holds s.ptr.toNat [b0, v] → 0xC0 ≤ b0.toNat →
      engineStep s = exec (.lit pad v) s)

/-- R164: CREF appends the value of a valid slot and makes it `prev`, leaving the cache; or raises
UNRESOLVED_CACHE_REF, then OUTPUT_OVERFLOW; and a CREF token's byte at `ptr` runs it. -/
def Obligations.CrefAppendsSlot : Prop :=
  ∀ (s : State) (i : Fin 64),
    ((s.cache.get i).valid = true → s.outCount.toNat + 1 ≤ s.cfg.pixMemSize →
      ∃ m : Memory,
        exec (.cref i) s =
          .next { s with
            pixMem := m, outCount := s.outCount + 1#32, prev := (s.cache.get i).value,
            ptr := s.ptr + 1#32 } ∧
        ∀ a, m.read a =
          if a = s.outCount.toNat then some (s.cache.get i).value else s.pixMem.read a) ∧
    ((s.cache.get i).valid = false →
      exec (.cref i) s = .next { s with errCode := 2#3, errOffset := s.ptr, phase := .error }) ∧
    ((s.cache.get i).valid = true → s.cfg.pixMemSize < s.outCount.toNat + 1 →
      exec (.cref i) s = .next { s with errCode := 5#3, errOffset := s.ptr, phase := .error }) ∧
    (s.phase = .tokens → s.ptr.toNat < s.tokenEnd.toNat → s.tokenEnd.toNat ≤ s.cfg.inMemSize →
      s.inMem.read s.ptr.toNat = some (BitVec.ofNat 8 i) → engineStep s = exec (.cref i) s)

/-- R165: DELTA appends `(prev + d) mod 256` and makes it `prev`, leaving the cache; or raises
OUTPUT_OVERFLOW; and a DELTA token's byte at `ptr` runs it. -/
def Obligations.DeltaAddsModulo256 : Prop :=
  ∀ (s : State) (d : Int),
    (s.outCount.toNat + 1 ≤ s.cfg.pixMemSize →
      ∃ (v : Byte) (m : Memory),
        (v.toNat : Int) = ((s.prev.toNat : Int) + d) % 256 ∧
        exec (.delta d) s =
          .next { s with
            pixMem := m, outCount := s.outCount + 1#32, prev := v, ptr := s.ptr + 1#32 } ∧
        ∀ a, m.read a = if a = s.outCount.toNat then some v else s.pixMem.read a) ∧
    (s.cfg.pixMemSize < s.outCount.toNat + 1 →
      exec (.delta d) s = .next { s with errCode := 5#3, errOffset := s.ptr, phase := .error }) ∧
    (∀ b0 : Byte, s.phase = .tokens → s.ptr.toNat < s.tokenEnd.toNat →
      s.tokenEnd.toNat ≤ s.cfg.inMemSize → s.inMem.read s.ptr.toNat = some b0 →
      0x40 ≤ b0.toNat → b0.toNat < 0x80 → d = (b0.toNat : Int) - 0x40 - 32 →
      engineStep s = exec (.delta d) s)

/-- R112, R113: HDR loads the dimensions, fixes `end` at N − 8 and points at offset 12; or raises BAD_LENGTH. -/
def Obligations.HdrLoadsDimensions : Prop :=
  ∀ (s : State) (w h : Word),
    (12 ≤ s.streamLen.toNat → s.streamLen.toNat ≤ s.cfg.inMemSize →
      ∃ e : Word, e.toNat = s.streamLen.toNat - 8 ∧
        exec (.hdr w h) s =
          .next { s with width := w, height := h, tokenEnd := e, ptr := 12#32, phase := .tokens }) ∧
    (s.streamLen.toNat < 12 ∨ s.cfg.inMemSize < s.streamLen.toNat →
      exec (.hdr w h) s = .next { s with errCode := 3#3, errOffset := 0#32, phase := .error })

/-- R160: meeting the footer finishes the pass, and only `phase` is written. That this is FTR's own effect is the
model's reading (assumption 10). -/
def Obligations.FtrOnlyFinishes : Prop :=
  ∀ s : State, exec .ftr s = .next { s with phase := .done }

/-- R110: the header step: BAD_LENGTH, then BAD_MAGIC, then the load. -/
def Obligations.HeaderStepChecksThenLoads : Prop :=
  ∀ s : State, s.phase = .header →
    (s.streamLen.toNat < 12 ∨ s.cfg.inMemSize < s.streamLen.toNat →
      engineStep s = .next { s with errCode := 3#3, errOffset := 0#32, phase := .error }) ∧
    (12 ≤ s.streamLen.toNat → s.streamLen.toNat ≤ s.cfg.inMemSize →
      (∀ ms : List Byte, ms.length = 4 → s.inMem.Holds 0 ms → ms ≠ magicBytes →
        engineStep s = .next { s with errCode := 1#3, errOffset := 0#32, phase := .error }) ∧
      (∀ (w0 w1 w2 w3 h0 h1 h2 h3 : Byte), s.inMem.Holds 0 (magicBytes ++ [w0, w1, w2, w3, h0, h1, h2, h3]) →
        ∃ e : Word, e.toNat = s.streamLen.toNat - 8 ∧
          engineStep s =
            .next { s with
              width := w0 ++ w1 ++ w2 ++ w3, height := h0 ++ h1 ++ h2 ++ h3, tokenEnd := e, ptr := 12#32,
              phase := .tokens }))

/-- R116: a stream that starts with the bytes of `HDR w, h` shows `w` and `h` in WIDTH and HEIGHT after the header
step. -/
def Obligations.HeaderFidelity : Prop :=
  ∀ (s : State) (w h : Word), s.phase = .header → 12 ≤ s.streamLen.toNat →
    s.streamLen.toNat ≤ s.cfg.inMemSize → s.inMem.Holds 0 (encode (.hdr w h)) →
    ∃ t, engineStep s = .next t ∧ t.csrAt 0x00C = w ∧ t.csrAt 0x010 = h

/-- R115: a stream of 12 to 20 bytes ends in DONE with zero pixels after the header step and one token step. Below
20 bytes `end` lies below `ptr`, against a remark of R24 (assumption 8). -/
def Obligations.ShortStreamsFinishEmpty : Prop :=
  ∀ (s : State) (w h : Word), s.Inv → s.phase = .header → s.host.agenda = [] →
    12 ≤ s.streamLen.toNat → s.streamLen.toNat ≤ 20 → s.inMem.Holds 0 (encode (.hdr w h)) →
    ∃ t, runs 2 s = .next t ∧ t.phase = .done ∧ t.outCount = 0#32 ∧ t.ptr = 12#32 ∧
      t.tokenEnd.toNat = s.streamLen.toNat - 8 ∧ t.width = w ∧ t.height = h ∧ t.pixMem = s.pixMem

/-- R161: a two-byte token whose first byte is the last of the token region raises TRUNCATED_TOKEN, whatever
stands in the footer. -/
def Obligations.StraddlingTokenIsTruncated : Prop :=
  ∀ (s : State) (b0 : Byte), s.phase = .tokens → s.ptr.toNat + 1 = s.tokenEnd.toNat →
    s.ptr.toNat < s.cfg.inMemSize → s.inMem.read s.ptr.toNat = some b0 → 0x80 ≤ b0.toNat →
    engineStep s = .next { s with errCode := 4#3, errOffset := s.ptr, phase := .error }

/-- R12, R51, R52: the engine refuses only a byte the host has not written, in the header or below `end`; and no
step at all faults. -/
def Obligations.OnlyUnwrittenInputIsRefused : Prop :=
  (∀ (s : State) (r : Refusal), s.Inv → engineStep s = .refused r →
    ∃ a, r = .inMemUnwritten a ∧ s.inMem.read a = none ∧
      ((s.phase = .header ∧ a < 12) ∨ (s.phase = .tokens ∧ 12 ≤ a ∧ a < s.tokenEnd.toNat))) ∧
  (∀ s : State, s.Inv → s.phase = .tokens → s.ptr.toNat < s.tokenEnd.toNat →
    s.inMem.read s.ptr.toNat = none → engineStep s = .refused (.inMemUnwritten s.ptr.toNat)) ∧
  (∀ (s : State) (r : Fault), s.Inv → step s ≠ .fault r)

/-! ### Errors -/

/-- R243, R244: an error writes its code, the offset where `ptr` stands (0 in the header step) and phase ERROR, and
no other state, and the engine then makes no further step. -/
def Obligations.ErrorsArePrecise : Prop :=
  ∀ s t : State, s.Inv → engineStep s = .next t → s.phase ≠ .error → t.phase = .error →
    ∃ c : BitVec 3, 1 ≤ c.toNat ∧ c.toNat ≤ 5 ∧
      t = { s with errCode := c, errOffset := s.ptr, phase := .error } ∧
      (s.phase = .header → s.ptr = 0#32) ∧ engineStep t = .next t

/-- R241: each error has exactly one cause. -/
def Obligations.ErrorCauses : Prop :=
  ∀ s t : State, s.Inv → engineStep s = .next t → s.phase ≠ .error → t.phase = .error →
    (t.errCode = 1#3 ∧ s.phase = .header ∧ s.LengthOk ∧
      ∃ ms : List Byte, ms.length = 4 ∧ s.inMem.Holds 0 ms ∧ ms ≠ magicBytes) ∨
    (t.errCode = 2#3 ∧ s.phase = .tokens ∧
      ∃ i : Fin 64, s.inMem.read s.ptr.toNat = some (BitVec.ofNat 8 i) ∧ (s.cache.get i).valid = false) ∨
    (t.errCode = 3#3 ∧ s.phase = .header ∧
      (s.streamLen.toNat < 12 ∨ s.cfg.inMemSize < s.streamLen.toNat)) ∨
    (t.errCode = 4#3 ∧ s.phase = .tokens ∧ s.ptr.toNat + 1 = s.tokenEnd.toNat ∧
      ∃ b0 : Byte, s.inMem.read s.ptr.toNat = some b0 ∧ 0x80 ≤ b0.toNat) ∨
    (t.errCode = 5#3 ∧ s.phase = .tokens ∧
      ∃ (b0 : Byte) (k : Nat), s.inMem.read s.ptr.toNat = some b0 ∧
        s.cfg.pixMemSize < s.outCount.toNat + k ∧
        (if 0x80 ≤ b0.toNat ∧ b0.toNat < 0xC0 then
          ∃ b1 : Byte, s.inMem.read (s.ptr.toNat + 1) = some b1 ∧ k = (b0.toNat - 0x80) * 256 + b1.toNat
        else k = 1))

/-! ### Whole-machine rules -/

/-- R45, R27, R28: the legal states hold the state after reset. -/
def Obligations.ResetIsLegal : Prop := State.reset.Inv

/-- R21, R24, R27, R28, R30, R42, R113, R139: every step keeps every part of the invariant (where
`end` lies below `ptr` it follows R115, assumption 8). -/
def Obligations.StepKeepsInvariant : Prop :=
  ∀ s t : State, s.Inv → step s = .next t → t.Inv

/-- R45, R270: a power-on reset leaves phase IDLE, every register 0, every slot empty and both memories
unwritten, from any state; only the parameters and the host's own record stay (assumption 13). -/
def Obligations.PowerOnResetClearsAll : Prop :=
  (∀ (s : State) (rest : List Event), s.host.agenda = .powerOn :: rest →
    ∃ c : Cache, (∀ i : Fin 64, c.get i = ⟨false, 0#8⟩) ∧
      step s = .next {
        cfg := s.cfg, phase := .idle, prev := 0#8, ptr := 0#32, tokenEnd := 0#32, cache := c, outCount := 0#32,
        width := 0#32, height := 0#32, errCode := 0#3, errOffset := 0#32, streamLen := 0#32, inMem := [],
        pixMem := [], host := { s.host with
          agenda := rest, synced := false, unseen := [], powerOns := s.host.powerOns + 1 } }) ∧
  State.reset.phase = .idle ∧ State.reset.inMem = [] ∧ State.reset.pixMem = [] ∧
  (∀ o : Nat, State.reset.csrAt o = 0#32)

/-- R21: only START leaves IDLE, DONE and ERROR (and a power-on reset, R270). -/
def Obligations.OnlyStartLeavesRest : Prop :=
  ∀ s t : State, step s = .next t → ¬ s.Busy → t.phase ≠ s.phase →
    (∃ rest, s.host.agenda = .powerOn :: rest ∧ t.phase = .idle) ∨
    (∃ (w : Word) (rest : List Event), s.host.agenda = .host (.csrWrite 4 0x000 w) :: rest ∧ w[0] = true ∧
      t.phase = .header)

/-- R134: the cache changes only by a LIT's fill, by START and by reset. -/
def Obligations.OnlyLitStartResetChangeCache : Prop :=
  ∀ s t : State, step s = .next t → t.cache ≠ s.cache →
    (∃ rest, s.host.agenda = .powerOn :: rest) ∨
    (∃ (w : Word) (rest : List Event), s.host.agenda = .host (.csrWrite 4 0x000 w) :: rest ∧ w[0] = true ∧
      ¬ s.Busy ∧ ∀ i : Fin 64, t.cache.get i = ⟨false, 0#8⟩) ∨
    ((s.host.agenda = [] ∨ ∃ rest, s.host.agenda = .engine :: rest) ∧ s.phase = .tokens ∧
      ∃ b0 v : Byte, s.inMem.read s.ptr.toNat = some b0 ∧ 0xC0 ≤ b0.toNat ∧
        s.inMem.read (s.ptr.toNat + 1) = some v ∧
        ∀ i : Fin 64, t.cache.get i = if i.val = v.toNat / 4 then ⟨true, v⟩ else s.cache.get i)

/-- R24: a token step moves `ptr` forward by the length of the token just executed and never past `end`; a step
that raises or finishes leaves it. -/
def Obligations.PtrMovesByTokenLength : Prop :=
  ∀ s t : State, s.Inv → s.phase = .tokens → engineStep s = .next t →
    (t.phase = .tokens ∧ t.ptr.toNat ≤ t.tokenEnd.toNat ∧
      ∃ b0 : Byte, s.inMem.read s.ptr.toNat = some b0 ∧
        t.ptr.toNat = s.ptr.toNat + if 0x80 ≤ b0.toNat then 2 else 1) ∨
    (t.phase ≠ .tokens ∧ t.ptr = s.ptr)

/-- R31, R50: the engine never writes InMem or `stream_len`, nor the parameters or the host's side. -/
def Obligations.EngineNeverWritesInput : Prop :=
  ∀ s t : State, engineStep s = .next t →
    t.inMem = s.inMem ∧ t.streamLen = s.streamLen ∧ t.cfg = s.cfg ∧ t.host = s.host

/-- R53, R54: an engine step leaves every PixMem byte outside the pixels it appends, and never loses one. -/
def Obligations.EngineOnlyAppendsPixels : Prop :=
  ∀ s t : State, s.Inv → engineStep s = .next t →
    s.outCount.toNat ≤ t.outCount.toNat ∧
    ∀ a, a < s.outCount.toNat ∨ t.outCount.toNat ≤ a → t.pixMem.read a = s.pixMem.read a

/-! ### The host -/

/-- R35: the fields of STATUS, and its value in each phase. -/
def Obligations.StatusBits : Prop :=
  (∀ s : State,
    s.statusWord[0] = decide (s.phase = .header ∨ s.phase = .tokens) ∧
    s.statusWord[1] = decide (s.phase = .done) ∧ s.statusWord[2] = decide (s.phase = .error) ∧
    s.statusWord[3] = false ∧ s.statusWord.extractLsb' 4 3 = s.errCode ∧
    s.statusWord.extractLsb' 7 25 = 0#25) ∧
  (∀ s : State, s.Inv →
    (s.phase = .idle → s.statusWord = 0#32) ∧ (s.Busy → s.statusWord = 1#32) ∧
    (s.phase = .done → s.statusWord = 2#32) ∧
    (s.phase = .error → s.statusWord = 4#32 ||| s.errCode.setWidth 32 <<< 4))

/-- R190: a 32-bit aligned CSR read returns the register at its offset, 0 for CTRL and for unmapped offsets, in every
phase (while busy that is assumption 17), and changes no engine state. Of the model's own record, a STATUS read that
shows DONE or ERR sets `synced`, and no other read changes it or `unseen` (R64, assumption 6). -/
def Obligations.CsrReadReturnsRegister : Prop :=
  ∀ (s : State) (o : Nat) (rest : List Event), o % 4 = 0 → o < 0x200 →
    s.host.agenda = .host (.csrRead 4 o) :: rest →
    ∃ (d : Word) (sy : Bool) (us : List Extent),
      step s = .next { s with
        host := { s.host with
          agenda := rest, observed := .word d :: s.host.observed, synced := sy, unseen := us } } ∧
      (if o = 0x004 ∧ s.Over then sy = true else sy = s.host.synced ∧ us = s.host.unseen) ∧
      (o = 0x000 → d = 0#32) ∧ (o = 0x004 → d = s.statusWord) ∧ (o = 0x008 → d = s.streamLen) ∧
      (o = 0x00C → d = s.width) ∧ (o = 0x010 → d = s.height) ∧ (o = 0x014 → d = s.outCount) ∧
      (o = 0x018 → d = s.ptr) ∧ (o = 0x01C → d = s.tokenEnd) ∧ (o = 0x020 → d = s.errOffset) ∧
      (o = 0x024 → d = s.prev.setWidth 32) ∧ (0x028 ≤ o → o < 0x100 → d = 0#32) ∧
      (∀ i : Fin 64, o = 0x100 + 4 * i.val →
        d.extractLsb' 0 8 = (s.cache.get i).value ∧ d[8] = (s.cache.get i).valid ∧ d.extractLsb' 9 23 = 0#23)

/-- R191: a CSR write to a read-only register or an unmapped offset is ignored. -/
def Obligations.ReadOnlyCsrWritesIgnored : Prop :=
  ∀ (s : State) (o : Nat) (w : Word) (rest : List Event), o % 4 = 0 → o < 0x200 → o ≠ 0x000 → o ≠ 0x008 →
    s.host.agenda = .host (.csrWrite 4 o w) :: rest →
    step s = .next { s with host := { s.host with agenda := rest } }

/-- R192: a STREAM_LEN write is taken and reads back when the engine is not busy, and is ignored when it is. -/
def Obligations.StreamLenWrite : Prop :=
  ∀ (s : State) (w : Word) (rest : List Event), s.host.agenda = .host (.csrWrite 4 0x008 w) :: rest →
    (¬ s.Busy → ∃ t, step s = .next t ∧ t = { s with streamLen := w, host := { s.host with agenda := rest } } ∧
      t.csrAt 0x008 = w) ∧
    (s.Busy → step s = .next { s with host := { s.host with agenda := rest } })

/-- R193: START clears every register but `stream_len` and both memories, and enters HEADER. Of the
model's own record, the pixels of a pass whose end the host has not seen join `unseen` (assumption 6). -/
def Obligations.StartClearsThePass : Prop :=
  ∀ (s : State) (w : Word) (rest : List Event), s.host.agenda = .host (.csrWrite 4 0x000 w) :: rest →
    w[0] = true → ¬ s.Busy →
    ∃ c : Cache, (∀ i : Fin 64, c.get i = ⟨false, 0#8⟩) ∧
      step s = .next { s with
        cache := c, prev := 0#8, outCount := 0#32, ptr := 0#32, tokenEnd := 0#32, width := 0#32,
        height := 0#32, errCode := 0#3, errOffset := 0#32, phase := .header,
        host := { s.host with
          agenda := rest, synced := false,
          unseen := if s.host.synced then s.host.unseen else ⟨0, s.outCount.toNat⟩ :: s.host.unseen } }

/-- R194: a CTRL write is ignored while the engine is busy, and in any phase when bit 0 is 0. -/
def Obligations.StartWhileBusyIgnored : Prop :=
  ∀ (s : State) (w : Word) (rest : List Event), s.host.agenda = .host (.csrWrite 4 0x000 w) :: rest →
    s.Busy ∨ w[0] = false → step s = .next { s with host := { s.host with agenda := rest } }

/-- R62: a CSR access that is not 32 bits wide or not aligned is refused. -/
def Obligations.BadCsrAccessRefused : Prop :=
  ∀ (s : State) (width o : Nat) (v : Word) (rest : List Event),
    s.host.agenda = .host (.csrRead width o) :: rest ∨ s.host.agenda = .host (.csrWrite width o v) :: rest →
    (width ≠ 4 → step s = .refused (.csrWidth width)) ∧
    (width = 4 → o % 4 ≠ 0 → step s = .refused (.csrMisaligned o))

/-- R65: a host write to InMem while the engine is busy is refused; otherwise it changes that byte alone. -/
def Obligations.InMemWriteOnlyWhileNotBusy : Prop :=
  ∀ (s : State) (o : Nat) (b : Byte) (rest : List Event), s.host.agenda = .host (.inMemWrite o b) :: rest →
    (s.Busy → step s = .refused (.inMemWriteWhileBusy o)) ∧
    (¬ s.Busy → o < s.cfg.inMemSize →
      ∃ m : Memory, step s = .next { s with inMem := m, host := { s.host with agenda := rest } } ∧
        ∀ a, m.read a = if a = o then some b else s.inMem.read a)

/-- R64: a host read of PixMem while the engine is not busy returns the pixel where a STATUS read has shown the end of
the pass that wrote it, and a draw otherwise and while the engine is busy (`Shown` is the model's own record,
assumption 6). -/
def Obligations.PixMemReadAfterPass : Prop :=
  ∀ (s : State) (o : Nat) (rest : List Event), o < s.cfg.pixMemSize →
    s.host.agenda = .host (.pixMemRead o) :: rest →
    (∀ b, ¬ s.Busy → s.Shown o → s.pixMem.read o = some b →
      step s = .next { s with
        host := { s.host with agenda := rest, observed := .byte b :: s.host.observed } }) ∧
    (s.Busy ∨ ¬ s.Shown o ∨ s.pixMem.read o = none →
      step s = .next { s with
        host := { s.host with
          agenda := rest, observed := .byte (Config.freeByte s.host.draws) :: s.host.observed,
          draws := s.host.draws + 1 } })

/-- R64: a STATUS read that shows DONE or ERR makes the pixels of its pass visible to the host, and no other offset;
and nothing else makes one visible (`Shown`, assumption 6), but that power-on leaves no pixel. -/
def Obligations.OnlyStatusReadShowsPixels : Prop :=
  (∀ (s : State) (rest : List Event), s.Over → s.host.agenda = .host (.csrRead 4 0x004) :: rest →
    ∃ t, step s = .next t ∧ t.host.synced = true ∧ t.pixMem = s.pixMem ∧
      ∀ a, t.Shown a ↔ a < s.outCount.toNat ∨ s.Shown a) ∧
  (∀ (s t : State) (a : Nat), s.Inv → step s = .next t → ¬ s.Shown a → t.Shown a →
    (s.Over ∧ a < s.outCount.toNat ∧ ∃ rest, s.host.agenda = .host (.csrRead 4 0x004) :: rest) ∨
    ((∃ rest, s.host.agenda = .powerOn :: rest) ∧ t.pixMem = []))

/-- R54, R64: a pixel that is visible to the host stays so, with its value, through later passes too, until the
engine writes a pixel there or power-on (`Shown`, assumption 6). -/
def Obligations.ShownPixelsStayVisible : Prop :=
  ∀ (s t : State) (a : Nat) (b : Byte), s.Inv → step s = .next t → s.Shown a → s.pixMem.read a = some b →
    (t.Shown a ∧ t.pixMem.read a = some b) ∨ (∃ rest, s.host.agenda = .powerOn :: rest) ∨
    (s.phase = .tokens ∧ s.outCount.toNat ≤ a ∧ a < t.outCount.toNat)

/-- R50, R63: a host read of InMem returns the byte the host wrote there, or what the offset holds since power-on, a
free value of its own; it changes nothing else, and two in a row agree. That it does so while the engine is busy, and
what it returns where nothing was written, is assumption 7. -/
def Obligations.InMemReadsBack : Prop :=
  (∀ (s : State) (o : Nat) (rest : List Event), o < s.cfg.inMemSize →
    s.host.agenda = .host (.inMemRead o) :: rest →
    ∃ b, step s = .next { s with
        host := { s.host with agenda := rest, observed := .byte b :: s.host.observed } } ∧
      b = (s.inMem.read o).getD (Config.powerOnByte s.host.powerOns o)) ∧
  (∀ (s : State) (o : Nat) (rest : List Event), o < s.cfg.inMemSize →
    s.host.agenda = .host (.inMemRead o) :: .host (.inMemRead o) :: rest →
    ∃ b, runs 2 s = .next { s with
      host := { s.host with agenda := rest, observed := .byte b :: .byte b :: s.host.observed } })

/-- R12, R50, R53, R62: a host access outside a space is refused by name, in any phase (assumption 9). -/
def Obligations.HostAccessOutsideRefused : Prop :=
  ∀ (s : State) (o : Nat) (rest : List Event),
    (s.cfg.inMemSize ≤ o → s.host.agenda = .host (.inMemRead o) :: rest → step s = .refused (.inMemOutside o)) ∧
    (∀ b, s.cfg.inMemSize ≤ o → s.host.agenda = .host (.inMemWrite o b) :: rest →
      step s = .refused (if s.Busy then .inMemWriteWhileBusy o else .inMemOutside o)) ∧
    (s.cfg.pixMemSize ≤ o → s.host.agenda = .host (.pixMemRead o) :: rest →
      step s = .refused (.pixMemOutside o)) ∧
    (0x200 ≤ o → o % 4 = 0 → s.host.agenda = .host (.csrRead 4 o) :: rest →
      step s = .refused (.csrOutside o)) ∧
    (∀ w, 0x200 ≤ o → o % 4 = 0 → s.host.agenda = .host (.csrWrite 4 o w) :: rest →
      step s = .refused (.csrOutside o))

/-- R33: no two registers share an offset, every register's offset is aligned and in the window, and reading there
reads it. -/
def Obligations.CsrMapIsOneToOne : Prop :=
  (∀ r : Csr, Csr.ofOffset r.offset = some r ∧ r.offset % 4 = 0 ∧ r.offset < 0x200) ∧
  (∀ (o : Nat) (r : Csr), Csr.ofOffset o = some r → r.offset = o)

/-- R56: where the platform keeps the windows apart, a bus address reaches at most one space. The bus decode is the
model's own, which no step uses (assumption 18). -/
def Obligations.BusWindowsNeverAlias : Prop :=
  ∀ (c : Config) (a : Nat), WindowsApart c →
    (∀ o, busTarget c a = some (.csr, o) ↔ a = c.csrBase + o ∧ o < 0x200) ∧
    (∀ o, busTarget c a = some (.inMem, o) ↔ a = c.inMemBase + o ∧ o < c.inMemSize) ∧
    (∀ o, busTarget c a = some (.pixMem, o) ↔ a = c.pixMemBase + o ∧ o < c.pixMemSize)

/-! ### Passes -/

/-- R114, R52: the bytes of the footer never matter: a pass over another InMem that agrees on the header and below
N − 8 takes the same steps. -/
def Obligations.FooterIsNeverRead : Prop :=
  ∀ (s t : State) (m : Memory) (k : Nat), s.phase = .header → s.host.agenda = [] →
    (∀ a, a < 12 ∨ a + 8 < s.streamLen.toNat → m.read a = s.inMem.read a) →
    runs k s = .next t → runs k { s with inMem := m } = .next { t with inMem := m }

/-- R167: a pass over a loaded stream ends in DONE or ERROR after at most `(end − 12) + 2` engine steps, and
nothing stops it. -/
def Obligations.PassTerminates : Prop :=
  ∀ s : State, s.Inv → ¬ s.Busy → s.host.agenda = [startEvent] → (s.LengthOk → s.Loaded) →
    ∃ (k : Nat) (t : State), k ≤ (s.streamLen.toNat - 20) + 2 ∧ runs (1 + k) s = .next t ∧ t.Over

/-- R168, R273: what a pass leaves depends only on `stream_len`, the stream's bytes and the parameters, not on
anything an earlier pass left. -/
def Obligations.PassIndependentOfEarlierPasses : Prop :=
  ∀ (s₁ s₂ t₁ : State) (k : Nat), s₁.cfg.SizesInRange → ¬ s₁.Busy → ¬ s₂.Busy → s₁.cfg = s₂.cfg →
    s₁.streamLen = s₂.streamLen → s₁.host.agenda = [startEvent] → s₂.host.agenda = [startEvent] →
    (∀ a, a < s₁.streamLen.toNat → s₁.inMem.read a = s₂.inMem.read a) →
    runs (1 + k) s₁ = .next t₁ →
    ∃ t₂, runs (1 + k) s₂ = .next t₂ ∧ t₂.phase = t₁.phase ∧ t₂.prev = t₁.prev ∧ t₂.ptr = t₁.ptr ∧
      t₂.tokenEnd = t₁.tokenEnd ∧ t₂.cache = t₁.cache ∧ t₂.outCount = t₁.outCount ∧ t₂.width = t₁.width ∧
      t₂.height = t₁.height ∧ t₂.errCode = t₁.errCode ∧ t₂.errOffset = t₁.errOffset ∧
      ∀ a, a < t₁.outCount.toNat → t₂.pixMem.read a = t₁.pixMem.read a

/-- R138: the delta between two brightnesses, where it fits, carries the one to the other. -/
def Obligations.DeltaInverse : Prop :=
  ∀ p v : Byte, -32 ≤ (v - p).toInt → (v - p).toInt ≤ 31 →
    ∃ b0 : Byte, (b0.toNat : Int) = 0x40 + ((v - p).toInt + 32) ∧ accumulate p (deltaDiff b0) = v

/-! ### With the reference producer (not hardware, R6) -/

/-- R210: the luma formula never leaves a byte. -/
def Obligations.LumaIsTheWeightedMean : Prop :=
  ∀ r g b : Byte,
    (Producer.luma r g b).toNat = (r.toNat * 30 + g.toNat * 59 + b.toNat * 11) / 100

/-- R221: what the reference producer emits. -/
def Obligations.ProducerStreamsWellFormed : Prop :=
  (∀ (pixels : List Byte) (i : Instr), i ∈ Producer.tokensOf pixels →
    (∃ len, i = .run len ∧ 2 ≤ len ∧ len ≤ 1023) ∨ (∃ v, i = .lit 0#6 v) ∨ (∃ x, i = .cref x) ∨
    (∃ d, i = .delta d ∧ -32 ≤ d ∧ d ≤ 31)) ∧
  (∀ (pixels : List Byte) (x : Fin 64) (r : Producer.Running),
    (.cref x, r) ∈ Producer.traceOf pixels → r.cache.get x = ⟨true, r.prev⟩) ∧
  (∀ (w h : Word) (pixels : List Byte),
    Producer.stream w h pixels =
      encode (.hdr w h) ++ (Producer.tokensOf pixels).flatMap encode ++ encode .ftr ∧
    (Producer.stream w h pixels).length = 20 + ((Producer.tokensOf pixels).map Instr.bytes).sum) ∧
  Producer.tokensOf [] = []

/-- R217, R228: the token of a value that no RUN takes (steps 2 to 5) is a DELTA exactly for a difference in range
where the value's slot is valid and holds another. -/
def Obligations.ProducerDeltaBoundary : Prop :=
  ∀ (r : Producer.Running) (v : Byte),
    ((∃ d, Producer.single r v = .delta d) ↔
      (r.cache.get (hash v)).valid = true ∧ (r.cache.get (hash v)).value ≠ v ∧
      -32 ≤ (v - r.prev).toInt ∧ (v - r.prev).toInt ≤ 31) ∧
    (∀ d, Producer.single r v = .delta d → d = (v - r.prev).toInt)

/-- R227: a run of up to 1023 values equal to the seed is one RUN token, and 1024 are RUN 1023 and LIT 0. -/
def Obligations.ProducerRunBoundary : Prop :=
  (∀ n : Nat, 2 ≤ n → n ≤ 1023 → Producer.tokensOf (List.replicate n 0#8) = [.run n]) ∧
  Producer.tokensOf (List.replicate 1024 0#8) = [.run 1023, .lit 0#6 0#8]

/-- R225: after each token of the producer's stream the engine's cache and `prev` are the producer's. -/
def Obligations.CacheTrajectoriesAgree : Prop :=
  ∀ (s : State) (w h : Word) (pixels : List Byte) (j : Nat) (hj : j < (Producer.traceOf pixels).length),
    s.Inv → ¬ s.Busy → s.host.agenda = launch (Producer.stream w h pixels) →
    (Producer.stream w h pixels).length ≤ s.cfg.inMemSize → pixels.length ≤ s.cfg.pixMemSize →
    ∃ t, runs ((launch (Producer.stream w h pixels)).length + 1 + (j + 1)) s = .next t ∧
      t.prev = ((Producer.traceOf pixels)[j]).2.prev ∧ t.cache = ((Producer.traceOf pixels)[j]).2.cache

/-- R226: decoding what the reference producer encoded gives the pixels back, launched by the host from any state
in which the engine is not busy. -/
def Obligations.RoundTrip : Prop :=
  ∀ (s : State) (w h : Word) (pixels : List Byte),
    s.Inv → ¬ s.Busy → s.host.agenda = launch (Producer.stream w h pixels) →
    (Producer.stream w h pixels).length ≤ s.cfg.inMemSize → pixels.length ≤ s.cfg.pixMemSize →
    ∃ (k : Nat) (t : State), runs k s = .next t ∧ t.phase = .done ∧ t.outCount.toNat = pixels.length ∧
      t.width = w ∧ t.height = h ∧
      ∀ (i : Nat) (hi : i < pixels.length), t.pixMem.read i = some pixels[i]
end

