-- ==== Sys2Proof/Laws/Cache.lean ====
section
/-! SUPPORT. The cache_controller: addressing, fill and lookup (41_units.md R131 to R133). -/
namespace Sys2Proof.Machine

/-- `hash(v) = v >> 2` (R131). -/
theorem hash_val (v : Byte) : (hash v).val = v.toNat / 4 := by
  have := v.isLt
  simp only [hash, BitVec.val_toFin, BitVec.extractLsb'_toNat, Nat.shiftRight_eq_div_pow]
  omega

/-- A fill changes its own slot and no other (R132). -/
theorem Cache.get_fill (c : Cache) (v : Byte) (i : Fin 64) :
    (c.fill v).get i = if i = hash v then ⟨true, v⟩ else c.get i := by
  simp only [fill, Vector.get_eq_getElem, Vector.getElem_set, Fin.ext_iff, eq_comm (a := i.val)]

/-- Every slot of the empty cache is empty (R26). -/
@[simp] theorem Cache.get_empty (i : Fin 64) : Cache.empty.get i = Slot.empty := by
  simp [Cache.empty, Vector.get_eq_getElem]

end Sys2Proof.Machine
end

