-- ==== Sys2Proof/Laws/Decode.lean ====
section
/-!
SUPPORT. What the pieces of the decoder give on the pieces the encoder writes, and the opcode map by ranges of the
first byte (30_encoding.md R88, R89).
-/
namespace Sys2Proof

@[simp] theorem tagOf_cref (x : BitVec 6) : tagOf (0b00#2 ++ x) = .cref := by decide +revert
@[simp] theorem tagOf_delta (x : BitVec 6) : tagOf (0b01#2 ++ x) = .delta := by decide +revert
@[simp] theorem tagOf_run (x : BitVec 6) : tagOf (0b10#2 ++ x) = .run := by decide +revert
@[simp] theorem tagOf_lit (x : BitVec 6) : tagOf (0b11#2 ++ x) = .lit := by decide +revert

/-- The low six bits of a byte written as a tag and a field are the field. -/
@[simp] theorem lowSix_append (t : BitVec 2) (x : BitVec 6) : lowSix (t ++ x) = x := by
  apply BitVec.eq_of_toNat_eq
  have := x.isLt
  simp only [lowSix, BitVec.extractLsb'_toNat, BitVec.toNat_append, Nat.shiftRight_zero, Nat.shiftLeft_eq]
  rw [Nat.mul_comm, ← Nat.two_pow_add_eq_or_of_lt this]
  omega

theorem lowSix_toNat (b0 : Byte) : (lowSix b0).toNat = b0.toNat % 64 := by
  simp [lowSix, BitVec.extractLsb'_toNat]

theorem runLength_eq (b0 b1 : Byte) : runLength b0 b1 = b0.toNat % 64 * 256 + b1.toNat := by
  have := b1.isLt
  simp only [runLength, BitVec.toNat_append, Nat.shiftLeft_eq, lowSix_toNat]
  rw [Nat.mul_comm, ← Nat.two_pow_add_eq_or_of_lt this]

/-- The tag decoder by ranges of the first byte (R89). -/
theorem tagOf_eq (b0 : Byte) :
    tagOf b0 = if b0.toNat < 0x40 then .cref else if b0.toNat < 0x80 then .delta
      else if b0.toNat < 0xC0 then .run else .lit := by
  decide +revert

/-- A token of two bytes is one whose first byte is at least 0x80. -/
theorem tagOf_bytes (b0 : Byte) : (tagOf b0).bytes = if 0x80 ≤ b0.toNat then 2 else 1 := by
  decide +revert

/-- A byte is its tag and its low six bits. -/
theorem byte_eq_tag_append (b0 : Byte) :
    b0 = (match tagOf b0 with
      | .cref => 0b00#2 | .delta => 0b01#2 | .run => 0b10#2 | .lit => 0b11#2) ++ lowSix b0 := by
  decide +revert

/-- Reading the four bytes of a word back gives the word (R58). -/
@[simp] theorem be32_be32Bytes (w : Word) :
    be32 (w.extractLsb' 24 8) (w.extractLsb' 16 8) (w.extractLsb' 8 8) (w.extractLsb' 0 8) = w := by
  apply BitVec.eq_of_getLsbD_eq
  intro i hi
  unfold be32
  erw [BitVec.getLsbD_append, BitVec.getLsbD_append, BitVec.getLsbD_append]
  simp only [BitVec.getLsbD_extractLsb']
  split
  · simp; omega
  · split
    · simp only [show i - 8 < 8 by omega, decide_true, Bool.true_and]; congr 1; omega
    · split
      · simp only [show i - 8 - 8 < 8 by omega, decide_true, Bool.true_and]; congr 1; omega
      · simp only [show i - 8 - 8 - 8 < 8 by omega, decide_true, Bool.true_and]; congr 1; omega

end Sys2Proof
end

