-- ==== Sys2Proof/Laws/State.lean ====
section
/-! SUPPORT. What each update of the state leaves in each field. -/
namespace Sys2Proof.Machine.State

/-! ### `raiseError` -/

@[simp] theorem raiseError_cfg (s : State) (e : ErrorKind) (off : Word) :
    (s.raiseError e off).cfg = s.cfg := rfl
@[simp] theorem raiseError_phase (s : State) (e : ErrorKind) (off : Word) :
    (s.raiseError e off).phase = .error := rfl
@[simp] theorem raiseError_prev (s : State) (e : ErrorKind) (off : Word) :
    (s.raiseError e off).prev = s.prev := rfl
@[simp] theorem raiseError_ptr (s : State) (e : ErrorKind) (off : Word) :
    (s.raiseError e off).ptr = s.ptr := rfl
@[simp] theorem raiseError_tokenEnd (s : State) (e : ErrorKind) (off : Word) :
    (s.raiseError e off).tokenEnd = s.tokenEnd := rfl
@[simp] theorem raiseError_cache (s : State) (e : ErrorKind) (off : Word) :
    (s.raiseError e off).cache = s.cache := rfl
@[simp] theorem raiseError_outCount (s : State) (e : ErrorKind) (off : Word) :
    (s.raiseError e off).outCount = s.outCount := rfl
@[simp] theorem raiseError_width (s : State) (e : ErrorKind) (off : Word) :
    (s.raiseError e off).width = s.width := rfl
@[simp] theorem raiseError_height (s : State) (e : ErrorKind) (off : Word) :
    (s.raiseError e off).height = s.height := rfl
@[simp] theorem raiseError_errCode (s : State) (e : ErrorKind) (off : Word) :
    (s.raiseError e off).errCode = e.code := rfl
@[simp] theorem raiseError_errOffset (s : State) (e : ErrorKind) (off : Word) :
    (s.raiseError e off).errOffset = off := rfl
@[simp] theorem raiseError_streamLen (s : State) (e : ErrorKind) (off : Word) :
    (s.raiseError e off).streamLen = s.streamLen := rfl
@[simp] theorem raiseError_inMem (s : State) (e : ErrorKind) (off : Word) :
    (s.raiseError e off).inMem = s.inMem := rfl
@[simp] theorem raiseError_pixMem (s : State) (e : ErrorKind) (off : Word) :
    (s.raiseError e off).pixMem = s.pixMem := rfl
@[simp] theorem raiseError_host (s : State) (e : ErrorKind) (off : Word) :
    (s.raiseError e off).host = s.host := rfl

/-! ### `startPass` -/

@[simp] theorem startPass_cfg (s : State) : (s.startPass).cfg = s.cfg := rfl
@[simp] theorem startPass_phase (s : State) : (s.startPass).phase = .header := rfl
@[simp] theorem startPass_prev (s : State) : (s.startPass).prev = 0#8 := rfl
@[simp] theorem startPass_ptr (s : State) : (s.startPass).ptr = 0#32 := rfl
@[simp] theorem startPass_tokenEnd (s : State) : (s.startPass).tokenEnd = 0#32 := rfl
@[simp] theorem startPass_cache (s : State) : (s.startPass).cache = Cache.empty := rfl
@[simp] theorem startPass_outCount (s : State) : (s.startPass).outCount = 0#32 := rfl
@[simp] theorem startPass_width (s : State) : (s.startPass).width = 0#32 := rfl
@[simp] theorem startPass_height (s : State) : (s.startPass).height = 0#32 := rfl
@[simp] theorem startPass_errCode (s : State) : (s.startPass).errCode = 0#3 := rfl
@[simp] theorem startPass_errOffset (s : State) : (s.startPass).errOffset = 0#32 := rfl
@[simp] theorem startPass_streamLen (s : State) : (s.startPass).streamLen = s.streamLen := rfl
@[simp] theorem startPass_inMem (s : State) : (s.startPass).inMem = s.inMem := rfl
@[simp] theorem startPass_pixMem (s : State) : (s.startPass).pixMem = s.pixMem := rfl
@[simp] theorem startPass_host (s : State) : (s.startPass).host = s.host.startPass s.outCount.toNat := rfl

/-! ### `finish` -/

@[simp] theorem finish_cfg (s : State) : (s.finish).cfg = s.cfg := rfl
@[simp] theorem finish_phase (s : State) : (s.finish).phase = .done := rfl
@[simp] theorem finish_prev (s : State) : (s.finish).prev = s.prev := rfl
@[simp] theorem finish_ptr (s : State) : (s.finish).ptr = s.ptr := rfl
@[simp] theorem finish_tokenEnd (s : State) : (s.finish).tokenEnd = s.tokenEnd := rfl
@[simp] theorem finish_cache (s : State) : (s.finish).cache = s.cache := rfl
@[simp] theorem finish_outCount (s : State) : (s.finish).outCount = s.outCount := rfl
@[simp] theorem finish_width (s : State) : (s.finish).width = s.width := rfl
@[simp] theorem finish_height (s : State) : (s.finish).height = s.height := rfl
@[simp] theorem finish_errCode (s : State) : (s.finish).errCode = s.errCode := rfl
@[simp] theorem finish_errOffset (s : State) : (s.finish).errOffset = s.errOffset := rfl
@[simp] theorem finish_streamLen (s : State) : (s.finish).streamLen = s.streamLen := rfl
@[simp] theorem finish_inMem (s : State) : (s.finish).inMem = s.inMem := rfl
@[simp] theorem finish_pixMem (s : State) : (s.finish).pixMem = s.pixMem := rfl
@[simp] theorem finish_host (s : State) : (s.finish).host = s.host := rfl

/-! ### `powerOnReset` -/

@[simp] theorem powerOnReset_cfg (s : State) : (s.powerOnReset).cfg = s.cfg := rfl
@[simp] theorem powerOnReset_phase (s : State) : (s.powerOnReset).phase = .idle := rfl
@[simp] theorem powerOnReset_prev (s : State) : (s.powerOnReset).prev = 0#8 := rfl
@[simp] theorem powerOnReset_ptr (s : State) : (s.powerOnReset).ptr = 0#32 := rfl
@[simp] theorem powerOnReset_tokenEnd (s : State) : (s.powerOnReset).tokenEnd = 0#32 := rfl
@[simp] theorem powerOnReset_cache (s : State) : (s.powerOnReset).cache = Cache.empty := rfl
@[simp] theorem powerOnReset_outCount (s : State) : (s.powerOnReset).outCount = 0#32 := rfl
@[simp] theorem powerOnReset_width (s : State) : (s.powerOnReset).width = 0#32 := rfl
@[simp] theorem powerOnReset_height (s : State) : (s.powerOnReset).height = 0#32 := rfl
@[simp] theorem powerOnReset_errCode (s : State) : (s.powerOnReset).errCode = 0#3 := rfl
@[simp] theorem powerOnReset_errOffset (s : State) : (s.powerOnReset).errOffset = 0#32 := rfl
@[simp] theorem powerOnReset_streamLen (s : State) : (s.powerOnReset).streamLen = 0#32 := rfl
@[simp] theorem powerOnReset_inMem (s : State) : (s.powerOnReset).inMem = [] := rfl
@[simp] theorem powerOnReset_pixMem (s : State) : (s.powerOnReset).pixMem = [] := rfl
@[simp] theorem powerOnReset_host (s : State) : (s.powerOnReset).host = s.host.powerOn := rfl

/-! ### `advance` -/

@[simp] theorem advance_cfg (s : State) (n : Word) : (s.advance n).cfg = s.cfg := rfl
@[simp] theorem advance_phase (s : State) (n : Word) : (s.advance n).phase = s.phase := rfl
@[simp] theorem advance_prev (s : State) (n : Word) : (s.advance n).prev = s.prev := rfl
@[simp] theorem advance_ptr (s : State) (n : Word) : (s.advance n).ptr = s.ptr + n := rfl
@[simp] theorem advance_tokenEnd (s : State) (n : Word) : (s.advance n).tokenEnd = s.tokenEnd := rfl
@[simp] theorem advance_cache (s : State) (n : Word) : (s.advance n).cache = s.cache := rfl
@[simp] theorem advance_outCount (s : State) (n : Word) : (s.advance n).outCount = s.outCount := rfl
@[simp] theorem advance_width (s : State) (n : Word) : (s.advance n).width = s.width := rfl
@[simp] theorem advance_height (s : State) (n : Word) : (s.advance n).height = s.height := rfl
@[simp] theorem advance_errCode (s : State) (n : Word) : (s.advance n).errCode = s.errCode := rfl
@[simp] theorem advance_errOffset (s : State) (n : Word) : (s.advance n).errOffset = s.errOffset := rfl
@[simp] theorem advance_streamLen (s : State) (n : Word) : (s.advance n).streamLen = s.streamLen := rfl
@[simp] theorem advance_inMem (s : State) (n : Word) : (s.advance n).inMem = s.inMem := rfl
@[simp] theorem advance_pixMem (s : State) (n : Word) : (s.advance n).pixMem = s.pixMem := rfl
@[simp] theorem advance_host (s : State) (n : Word) : (s.advance n).host = s.host := rfl

/-! ### `setPrev` -/

@[simp] theorem setPrev_cfg (s : State) (v : Byte) : (s.setPrev v).cfg = s.cfg := rfl
@[simp] theorem setPrev_phase (s : State) (v : Byte) : (s.setPrev v).phase = s.phase := rfl
@[simp] theorem setPrev_prev (s : State) (v : Byte) : (s.setPrev v).prev = v := rfl
@[simp] theorem setPrev_ptr (s : State) (v : Byte) : (s.setPrev v).ptr = s.ptr := rfl
@[simp] theorem setPrev_tokenEnd (s : State) (v : Byte) : (s.setPrev v).tokenEnd = s.tokenEnd := rfl
@[simp] theorem setPrev_cache (s : State) (v : Byte) : (s.setPrev v).cache = s.cache := rfl
@[simp] theorem setPrev_outCount (s : State) (v : Byte) : (s.setPrev v).outCount = s.outCount := rfl
@[simp] theorem setPrev_width (s : State) (v : Byte) : (s.setPrev v).width = s.width := rfl
@[simp] theorem setPrev_height (s : State) (v : Byte) : (s.setPrev v).height = s.height := rfl
@[simp] theorem setPrev_errCode (s : State) (v : Byte) : (s.setPrev v).errCode = s.errCode := rfl
@[simp] theorem setPrev_errOffset (s : State) (v : Byte) : (s.setPrev v).errOffset = s.errOffset := rfl
@[simp] theorem setPrev_streamLen (s : State) (v : Byte) : (s.setPrev v).streamLen = s.streamLen := rfl
@[simp] theorem setPrev_inMem (s : State) (v : Byte) : (s.setPrev v).inMem = s.inMem := rfl
@[simp] theorem setPrev_pixMem (s : State) (v : Byte) : (s.setPrev v).pixMem = s.pixMem := rfl
@[simp] theorem setPrev_host (s : State) (v : Byte) : (s.setPrev v).host = s.host := rfl

/-! ### `fill` -/

@[simp] theorem fill_cfg (s : State) (v : Byte) : (s.fill v).cfg = s.cfg := rfl
@[simp] theorem fill_phase (s : State) (v : Byte) : (s.fill v).phase = s.phase := rfl
@[simp] theorem fill_prev (s : State) (v : Byte) : (s.fill v).prev = s.prev := rfl
@[simp] theorem fill_ptr (s : State) (v : Byte) : (s.fill v).ptr = s.ptr := rfl
@[simp] theorem fill_tokenEnd (s : State) (v : Byte) : (s.fill v).tokenEnd = s.tokenEnd := rfl
@[simp] theorem fill_cache (s : State) (v : Byte) : (s.fill v).cache = s.cache.fill v := rfl
@[simp] theorem fill_outCount (s : State) (v : Byte) : (s.fill v).outCount = s.outCount := rfl
@[simp] theorem fill_width (s : State) (v : Byte) : (s.fill v).width = s.width := rfl
@[simp] theorem fill_height (s : State) (v : Byte) : (s.fill v).height = s.height := rfl
@[simp] theorem fill_errCode (s : State) (v : Byte) : (s.fill v).errCode = s.errCode := rfl
@[simp] theorem fill_errOffset (s : State) (v : Byte) : (s.fill v).errOffset = s.errOffset := rfl
@[simp] theorem fill_streamLen (s : State) (v : Byte) : (s.fill v).streamLen = s.streamLen := rfl
@[simp] theorem fill_inMem (s : State) (v : Byte) : (s.fill v).inMem = s.inMem := rfl
@[simp] theorem fill_pixMem (s : State) (v : Byte) : (s.fill v).pixMem = s.pixMem := rfl
@[simp] theorem fill_host (s : State) (v : Byte) : (s.fill v).host = s.host := rfl

/-! ### `appendPixel` -/

@[simp] theorem appendPixel_cfg (s : State) (v : Byte) : (s.appendPixel v).cfg = s.cfg := rfl
@[simp] theorem appendPixel_phase (s : State) (v : Byte) : (s.appendPixel v).phase = s.phase := rfl
@[simp] theorem appendPixel_prev (s : State) (v : Byte) : (s.appendPixel v).prev = s.prev := rfl
@[simp] theorem appendPixel_ptr (s : State) (v : Byte) : (s.appendPixel v).ptr = s.ptr := rfl
@[simp] theorem appendPixel_tokenEnd (s : State) (v : Byte) : (s.appendPixel v).tokenEnd = s.tokenEnd := rfl
@[simp] theorem appendPixel_cache (s : State) (v : Byte) : (s.appendPixel v).cache = s.cache := rfl
@[simp] theorem appendPixel_outCount (s : State) (v : Byte) :
    (s.appendPixel v).outCount = s.outCount + 1#32 := rfl
@[simp] theorem appendPixel_width (s : State) (v : Byte) : (s.appendPixel v).width = s.width := rfl
@[simp] theorem appendPixel_height (s : State) (v : Byte) : (s.appendPixel v).height = s.height := rfl
@[simp] theorem appendPixel_errCode (s : State) (v : Byte) : (s.appendPixel v).errCode = s.errCode := rfl
@[simp] theorem appendPixel_errOffset (s : State) (v : Byte) :
    (s.appendPixel v).errOffset = s.errOffset := rfl
@[simp] theorem appendPixel_streamLen (s : State) (v : Byte) :
    (s.appendPixel v).streamLen = s.streamLen := rfl
@[simp] theorem appendPixel_inMem (s : State) (v : Byte) : (s.appendPixel v).inMem = s.inMem := rfl
@[simp] theorem appendPixel_pixMem (s : State) (v : Byte) :
    (s.appendPixel v).pixMem = s.pixMem.write s.outCount.toNat v := rfl
@[simp] theorem appendPixel_host (s : State) (v : Byte) : (s.appendPixel v).host = s.host := rfl

/-! ### `loadHeader` -/

@[simp] theorem loadHeader_cfg (s : State) (w h : Word) : (s.loadHeader w h).cfg = s.cfg := rfl
@[simp] theorem loadHeader_phase (s : State) (w h : Word) : (s.loadHeader w h).phase = .tokens := rfl
@[simp] theorem loadHeader_prev (s : State) (w h : Word) : (s.loadHeader w h).prev = s.prev := rfl
@[simp] theorem loadHeader_ptr (s : State) (w h : Word) : (s.loadHeader w h).ptr = 12#32 := rfl
@[simp] theorem loadHeader_tokenEnd (s : State) (w h : Word) :
    (s.loadHeader w h).tokenEnd = footerBound s.streamLen := rfl
@[simp] theorem loadHeader_cache (s : State) (w h : Word) : (s.loadHeader w h).cache = s.cache := rfl
@[simp] theorem loadHeader_outCount (s : State) (w h : Word) : (s.loadHeader w h).outCount = s.outCount := rfl
@[simp] theorem loadHeader_width (s : State) (w h : Word) : (s.loadHeader w h).width = w := rfl
@[simp] theorem loadHeader_height (s : State) (w h : Word) : (s.loadHeader w h).height = h := rfl
@[simp] theorem loadHeader_errCode (s : State) (w h : Word) : (s.loadHeader w h).errCode = s.errCode := rfl
@[simp] theorem loadHeader_errOffset (s : State) (w h : Word) :
    (s.loadHeader w h).errOffset = s.errOffset := rfl
@[simp] theorem loadHeader_streamLen (s : State) (w h : Word) :
    (s.loadHeader w h).streamLen = s.streamLen := rfl
@[simp] theorem loadHeader_inMem (s : State) (w h : Word) : (s.loadHeader w h).inMem = s.inMem := rfl
@[simp] theorem loadHeader_pixMem (s : State) (w h : Word) : (s.loadHeader w h).pixMem = s.pixMem := rfl
@[simp] theorem loadHeader_host (s : State) (w h : Word) : (s.loadHeader w h).host = s.host := rfl

/-! ### `withAgenda` -/

@[simp] theorem withAgenda_cfg (s : State) (es : List Event) : (s.withAgenda es).cfg = s.cfg := rfl
@[simp] theorem withAgenda_phase (s : State) (es : List Event) : (s.withAgenda es).phase = s.phase := rfl
@[simp] theorem withAgenda_prev (s : State) (es : List Event) : (s.withAgenda es).prev = s.prev := rfl
@[simp] theorem withAgenda_ptr (s : State) (es : List Event) : (s.withAgenda es).ptr = s.ptr := rfl
@[simp] theorem withAgenda_tokenEnd (s : State) (es : List Event) :
    (s.withAgenda es).tokenEnd = s.tokenEnd := rfl
@[simp] theorem withAgenda_cache (s : State) (es : List Event) : (s.withAgenda es).cache = s.cache := rfl
@[simp] theorem withAgenda_outCount (s : State) (es : List Event) :
    (s.withAgenda es).outCount = s.outCount := rfl
@[simp] theorem withAgenda_width (s : State) (es : List Event) : (s.withAgenda es).width = s.width := rfl
@[simp] theorem withAgenda_height (s : State) (es : List Event) : (s.withAgenda es).height = s.height := rfl
@[simp] theorem withAgenda_errCode (s : State) (es : List Event) :
    (s.withAgenda es).errCode = s.errCode := rfl
@[simp] theorem withAgenda_errOffset (s : State) (es : List Event) :
    (s.withAgenda es).errOffset = s.errOffset := rfl
@[simp] theorem withAgenda_streamLen (s : State) (es : List Event) :
    (s.withAgenda es).streamLen = s.streamLen := rfl
@[simp] theorem withAgenda_inMem (s : State) (es : List Event) : (s.withAgenda es).inMem = s.inMem := rfl
@[simp] theorem withAgenda_pixMem (s : State) (es : List Event) : (s.withAgenda es).pixMem = s.pixMem := rfl
@[simp] theorem withAgenda_host (s : State) (es : List Event) :
    (s.withAgenda es).host = { s.host with agenda := es } := rfl

/-! ### `observe` -/

@[simp] theorem observe_cfg (s : State) (d : HostDatum) : (s.observe d).cfg = s.cfg := rfl
@[simp] theorem observe_phase (s : State) (d : HostDatum) : (s.observe d).phase = s.phase := rfl
@[simp] theorem observe_prev (s : State) (d : HostDatum) : (s.observe d).prev = s.prev := rfl
@[simp] theorem observe_ptr (s : State) (d : HostDatum) : (s.observe d).ptr = s.ptr := rfl
@[simp] theorem observe_tokenEnd (s : State) (d : HostDatum) : (s.observe d).tokenEnd = s.tokenEnd := rfl
@[simp] theorem observe_cache (s : State) (d : HostDatum) : (s.observe d).cache = s.cache := rfl
@[simp] theorem observe_outCount (s : State) (d : HostDatum) : (s.observe d).outCount = s.outCount := rfl
@[simp] theorem observe_width (s : State) (d : HostDatum) : (s.observe d).width = s.width := rfl
@[simp] theorem observe_height (s : State) (d : HostDatum) : (s.observe d).height = s.height := rfl
@[simp] theorem observe_errCode (s : State) (d : HostDatum) : (s.observe d).errCode = s.errCode := rfl
@[simp] theorem observe_errOffset (s : State) (d : HostDatum) : (s.observe d).errOffset = s.errOffset := rfl
@[simp] theorem observe_streamLen (s : State) (d : HostDatum) : (s.observe d).streamLen = s.streamLen := rfl
@[simp] theorem observe_inMem (s : State) (d : HostDatum) : (s.observe d).inMem = s.inMem := rfl
@[simp] theorem observe_pixMem (s : State) (d : HostDatum) : (s.observe d).pixMem = s.pixMem := rfl
@[simp] theorem observe_host (s : State) (d : HostDatum) :
    (s.observe d).host = { s.host with observed := d :: s.host.observed } := rfl

/-! ### `observeFree` -/

@[simp] theorem observeFree_cfg (s : State) : (s.observeFree).cfg = s.cfg := rfl
@[simp] theorem observeFree_phase (s : State) : (s.observeFree).phase = s.phase := rfl
@[simp] theorem observeFree_prev (s : State) : (s.observeFree).prev = s.prev := rfl
@[simp] theorem observeFree_ptr (s : State) : (s.observeFree).ptr = s.ptr := rfl
@[simp] theorem observeFree_tokenEnd (s : State) : (s.observeFree).tokenEnd = s.tokenEnd := rfl
@[simp] theorem observeFree_cache (s : State) : (s.observeFree).cache = s.cache := rfl
@[simp] theorem observeFree_outCount (s : State) : (s.observeFree).outCount = s.outCount := rfl
@[simp] theorem observeFree_width (s : State) : (s.observeFree).width = s.width := rfl
@[simp] theorem observeFree_height (s : State) : (s.observeFree).height = s.height := rfl
@[simp] theorem observeFree_errCode (s : State) : (s.observeFree).errCode = s.errCode := rfl
@[simp] theorem observeFree_errOffset (s : State) : (s.observeFree).errOffset = s.errOffset := rfl
@[simp] theorem observeFree_streamLen (s : State) : (s.observeFree).streamLen = s.streamLen := rfl
@[simp] theorem observeFree_inMem (s : State) : (s.observeFree).inMem = s.inMem := rfl
@[simp] theorem observeFree_pixMem (s : State) : (s.observeFree).pixMem = s.pixMem := rfl
@[simp] theorem observeFree_host (s : State) :
    (s.observeFree).host = { s.host with observed := .byte (Config.freeByte s.host.draws) :: s.host.observed, draws := s.host.draws + 1 } := rfl

end Sys2Proof.Machine.State

namespace Sys2Proof.Machine.HostSide

/-! ### `HostSide.startPass` -/

@[simp] theorem startPass_agenda (h : HostSide) (n : Nat) : (h.startPass n).agenda = h.agenda := rfl
@[simp] theorem startPass_observed (h : HostSide) (n : Nat) : (h.startPass n).observed = h.observed := rfl
@[simp] theorem startPass_draws (h : HostSide) (n : Nat) : (h.startPass n).draws = h.draws := rfl
@[simp] theorem startPass_synced (h : HostSide) (n : Nat) : (h.startPass n).synced = false := rfl
@[simp] theorem startPass_unseen (h : HostSide) (n : Nat) :
    (h.startPass n).unseen = if h.synced then h.unseen else ⟨0, n⟩ :: h.unseen := rfl
@[simp] theorem startPass_powerOns (h : HostSide) (n : Nat) : (h.startPass n).powerOns = h.powerOns := rfl

/-! ### `HostSide.sawEnd` -/

@[simp] theorem sawEnd_agenda (h : HostSide) (n : Nat) : (h.sawEnd n).agenda = h.agenda := rfl
@[simp] theorem sawEnd_observed (h : HostSide) (n : Nat) : (h.sawEnd n).observed = h.observed := rfl
@[simp] theorem sawEnd_draws (h : HostSide) (n : Nat) : (h.sawEnd n).draws = h.draws := rfl
@[simp] theorem sawEnd_synced (h : HostSide) (n : Nat) : (h.sawEnd n).synced = true := rfl
@[simp] theorem sawEnd_powerOns (h : HostSide) (n : Nat) : (h.sawEnd n).powerOns = h.powerOns := rfl

/-! ### `HostSide.powerOn` -/

@[simp] theorem powerOn_agenda (h : HostSide) : (h.powerOn).agenda = h.agenda := rfl
@[simp] theorem powerOn_observed (h : HostSide) : (h.powerOn).observed = h.observed := rfl
@[simp] theorem powerOn_draws (h : HostSide) : (h.powerOn).draws = h.draws := rfl
@[simp] theorem powerOn_synced (h : HostSide) : (h.powerOn).synced = false := rfl
@[simp] theorem powerOn_unseen (h : HostSide) : (h.powerOn).unseen = [] := rfl
@[simp] theorem powerOn_powerOns (h : HostSide) : (h.powerOn).powerOns = h.powerOns + 1 := rfl

end Sys2Proof.Machine.HostSide
end

