-- ==== Sys2Proof/Laws/HostPort.lean ====
section
/-!
SUPPORT. The CSR map and what each action of the host can do (43_host_interface.md R190 to R195).
-/
namespace Sys2Proof.Machine

/-- A register found at an offset is the register of that offset (R33). -/
theorem Csr.offset_of_ofOffset {o : Nat} {r : Csr} (h : Csr.ofOffset o = some r) : r.offset = o := by
  unfold ofOffset at h
  repeat' split at h
  all_goals first | (cases h; simp_all [offset]; try omega) | cases h

/-- An access R62 admits is performed. -/
theorem csrAccess_ok {o : Nat} (go : State → State) (s : State) (h4 : o % 4 = 0) (hl : o < 0x200) :
    csrAccess 4 o go s = .next (go s) := by
  simp [csrAccess, h4, Config.csrWindow, hl]

@[simp] theorem startPass_busy (s : State) : s.startPass.Busy := .inl rfl

/-- A CTRL write starts a pass or does nothing (R193, R194). -/
theorem State.writeCtrl_cases (s : State) (w : Word) :
    (w[0] = true ∧ ¬ s.Busy ∧ s.writeCtrl w = s.startPass) ∨
    ((w[0] = false ∨ s.Busy) ∧ s.writeCtrl w = s) := by
  by_cases h : w[0] = true ∧ ¬ s.Busy
  · exact .inl ⟨h.1, h.2, if_pos h⟩
  · refine .inr ⟨?_, if_neg h⟩
    rcases Decidable.not_and_iff_or_not.mp h with h | h
    · exact .inl (by simpa using h)
    · exact .inr (Decidable.not_not.mp h)

/-- A CSR write starts a pass, sets `stream_len`, or does nothing (R191). -/
theorem State.csrStore_cases (s : State) (o : Nat) (w : Word) :
    (o = 0x000 ∧ w[0] = true ∧ ¬ s.Busy ∧ s.csrStore o w = s.startPass) ∨
    (o = 0x008 ∧ ¬ s.Busy ∧ s.csrStore o w = { s with streamLen := w }) ∨
    s.csrStore o w = s := by
  unfold State.csrStore
  cases hr : Csr.ofOffset o with
  | none => exact .inr (.inr rfl)
  | some r =>
    have ho := Csr.offset_of_ofOffset hr
    cases r <;> try exact .inr (.inr rfl)
    · rcases s.writeCtrl_cases w with ⟨h0, hb, e⟩ | ⟨_, e⟩
      · exact .inl ⟨ho.symm, h0, hb, e⟩
      · exact .inr (.inr e)
    · by_cases hb : s.Busy
      · exact .inr (.inr (if_pos hb))
      · exact .inr (.inl ⟨ho.symm, hb, if_neg hb⟩)

/-- Everything a host action can do where it answers a next state: only a write of a register or of InMem
changes the engine's state; a read changes the host's side alone. -/
theorem hostAct_cases {op : HostOp} {s t : State} (h : hostAct op s = .next t) :
    (∃ w, op = .csrWrite 4 0x000 w ∧ w[0] = true ∧ ¬ s.Busy ∧ t = s.startPass) ∨
    (∃ w, op = .csrWrite 4 0x008 w ∧ ¬ s.Busy ∧ t = { s with streamLen := w }) ∨
    (∃ o w, op = .csrWrite 4 o w ∧ t = s) ∨
    (∃ o b, op = .inMemWrite o b ∧ ¬ s.Busy ∧ o < s.cfg.inMemSize ∧ t = { s with inMem := s.inMem.write o b }) ∨
    (∃ hs, t = { s with host := hs } ∧ hs.agenda = s.host.agenda ∧
      ((hs.synced = s.host.synced ∧ hs.unseen = s.host.unseen) ∨
        (op = .csrRead 4 0x004 ∧ (s.doneBit ∨ s.errBit) ∧ hs.synced = true ∧
          hs.unseen = (s.host.sawEnd s.outCount.toNat).unseen))) := by
  cases op with
  | csrRead width offset =>
    simp only [hostAct, csrAccess] at h
    split at h
    · cases h
    · split at h
      · cases h
      · split at h
        · next hw _ _ =>
          refine .inr (.inr (.inr (.inr ?_)))
          have hw4 : width = 4 := by omega
          subst hw4
          cases h
          unfold State.csrLoad
          by_cases hc : Csr.ofOffset offset = some .status ∧ (s.doneBit ∨ s.errBit)
          · rw [if_pos hc]
            have := Csr.offset_of_ofOffset hc.1
            exact ⟨_, rfl, rfl, .inr ⟨by rw [← this]; rfl, hc.2, rfl, rfl⟩⟩
          · rw [if_neg hc]; exact ⟨_, rfl, rfl, .inl ⟨rfl, rfl⟩⟩
        · cases h
  | csrWrite width offset value =>
    simp only [hostAct, csrAccess] at h
    split at h
    · cases h
    · split at h
      · cases h
      · split at h
        · next hw _ _ =>
          have hw4 : width = 4 := by omega
          subst hw4
          cases h
          rcases s.csrStore_cases offset value with ⟨rfl, h0, hb, e⟩ | ⟨rfl, hb, e⟩ | e
          · exact .inl ⟨value, rfl, h0, hb, e⟩
          · exact .inr (.inl ⟨value, rfl, hb, e⟩)
          · exact .inr (.inr (.inl ⟨offset, value, rfl, e⟩))
        · cases h
  | inMemWrite offset value =>
    simp only [hostAct, hostInMemWrite] at h
    split at h
    · cases h
    · split at h
      · next hb ho => cases h; exact .inr (.inr (.inr (.inl ⟨offset, value, rfl, hb, ho, rfl⟩)))
      · cases h
  | inMemRead offset =>
    simp only [hostAct, hostInMemRead] at h
    split at h
    · cases h; exact .inr (.inr (.inr (.inr ⟨_, rfl, rfl, .inl ⟨rfl, rfl⟩⟩)))
    · cases h
  | pixMemRead offset =>
    simp only [hostAct, hostPixMemRead] at h
    split at h
    · split at h
      · cases h
        refine .inr (.inr (.inr (.inr ?_)))
        split
        · exact ⟨_, rfl, rfl, .inl ⟨rfl, rfl⟩⟩
        · exact ⟨_, rfl, rfl, .inl ⟨rfl, rfl⟩⟩
      · cases h; exact .inr (.inr (.inr (.inr ⟨_, rfl, rfl, .inl ⟨rfl, rfl⟩⟩)))
    · cases h

/-- A host action never faults (R12). -/
theorem hostAct_ne_fault (op : HostOp) (s : State) (r : Fault) : hostAct op s ≠ .fault r := by
  cases op <;>
    simp only [hostAct, csrAccess, hostInMemWrite, hostInMemRead, hostPixMemRead] <;> (repeat' split) <;> simp

/-! ### What the host may rely on of PixMem (R64) -/

theorem Extent.covers_from (n : Nat) (e : Extent) (a : Nat) : (e.from n).Covers a ↔ n ≤ a ∧ e.Covers a := by
  simp only [Extent.from, Extent.Covers]; omega

/-- Seeing the end of a pass of `n` pixels makes the offsets below `n` seen and leaves the others as they were. -/
theorem HostSide.sawEnd_unseen (h : HostSide) (n a : Nat) :
    (∀ e ∈ (h.sawEnd n).unseen, ¬ e.Covers a) ↔ (n ≤ a → ∀ e ∈ h.unseen, ¬ e.Covers a) := by
  simp only [HostSide.sawEnd, List.mem_filter, List.mem_map, decide_eq_true_eq]
  constructor
  · intro hs hn e he hc
    have hf := (Extent.covers_from n e a).mpr ⟨hn, hc⟩
    exact hs _ ⟨⟨e, he, rfl⟩, Nat.lt_of_le_of_lt hf.1 hf.2⟩ hf
  · rintro hs _ ⟨⟨e, he, rfl⟩, _⟩ hc
    obtain ⟨hn, hc⟩ := (Extent.covers_from n e a).mp hc
    exact hs hn e he hc

/-- START shows no offset that was not shown, and hides none that was (R64). -/
theorem State.shown_startPass (s : State) (a : Nat) : s.startPass.Shown a ↔ s.Shown a := by
  cases h : s.host.synced <;> simp [State.Shown, Extent.Covers, h]

/-- A STATUS read that shows the end of a pass shows every pixel of it (R64). -/
theorem State.shown_sawEnd (s : State) (a : Nat) :
    { s with host := s.host.sawEnd s.outCount.toNat }.Shown a ↔ a < s.outCount.toNat ∨ s.Shown a := by
  have := HostSide.sawEnd_unseen s.host s.outCount.toNat a
  simp only [State.Shown, HostSide.sawEnd_synced, true_or, true_and, this]
  constructor
  · intro h
    by_cases hn : s.outCount.toNat ≤ a
    · exact .inr ⟨.inr hn, h hn⟩
    · exact .inl (by omega)
  · rintro (h | h) hn
    · omega
    · exact h.2

end Sys2Proof.Machine
end

