-- ==== Sys2Proof/Laws/Memory.lean ====
section
/-!
SUPPORT. Byte memories: a read after a write, and the canonical form that every memory operation keeps.
-/
namespace Sys2Proof.Machine.Memory

theorem wf_nil : Memory.wf [] := List.Pairwise.nil

@[simp] theorem read_nil (a : Nat) : Memory.read [] a = none := rfl

theorem read_cons (c : Host.Cell) (m : Memory) (a : Nat) :
    Memory.read (c :: m) a = if c.1 = a then some c.2 else Memory.read m a := rfl

/-- A read gives the value written there, and every other offset as before. -/
theorem read_write (m : Memory) (a a' : Nat) (b : Byte) :
    (m.write a b).read a' = if a' = a then some b else m.read a' := by
  induction m with
  | nil => grind [write, read]
  | cons c m ih => grind [write, read]

@[simp] theorem read_write_same (m : Memory) (a : Nat) (b : Byte) : (m.write a b).read a = some b := by
  simp [read_write]

theorem read_write_other (m : Memory) {a a' : Nat} (b : Byte) (h : a' ≠ a) :
    (m.write a b).read a' = m.read a' := by
  simp [read_write, h]

/-- The cells of a memory after a write are the old ones and the new one. -/
theorem mem_write {m : Memory} {a : Nat} {b : Byte} {c : Host.Cell} (h : c ∈ m.write a b) :
    c = (a, b) ∨ c ∈ m := by
  induction m with
  | nil => simpa [write] using h
  | cons d m ih =>
    obtain ⟨x, e⟩ := d
    simp only [write] at h
    split at h
    · simpa using h
    · split at h
      · rcases List.mem_cons.mp h with h | h
        · exact .inl h
        · exact .inr (List.mem_cons_of_mem _ h)
      · rcases List.mem_cons.mp h with h | h
        · exact .inr (h ▸ List.mem_cons_self)
        · exact (ih h).imp id (List.mem_cons_of_mem _)

/-- A write keeps the canonical form. -/
theorem wf_write {m : Memory} (h : m.wf) (a : Nat) (b : Byte) : (m.write a b).wf := by
  induction m with
  | nil => simp [write, wf]
  | cons d m ih =>
    obtain ⟨x, e⟩ := d
    obtain ⟨hx, hm⟩ := List.pairwise_cons.mp h
    simp only [write]
    split
    · next hlt =>
      refine List.pairwise_cons.mpr ⟨fun c hc => ?_, h⟩
      rcases List.mem_cons.mp hc with rfl | hc
      · exact hlt
      · exact Nat.lt_trans hlt (hx c hc)
    · split
      · next heq => subst heq; exact List.pairwise_cons.mpr ⟨hx, hm⟩
      · refine List.pairwise_cons.mpr ⟨fun c hc => ?_, ih hm⟩
        rcases mem_write hc with rfl | hc
        · show x < a; omega
        · exact hx c hc

/-- A write inside a memory's size keeps every cell inside. -/
theorem bound_write {m : Memory} {size : Nat} (h : ∀ c ∈ m, c.1 < size) {a : Nat} (ha : a < size) (b : Byte) :
    ∀ c ∈ m.write a b, c.1 < size := by
  intro c hc
  rcases mem_write hc with rfl | hc
  · exact ha
  · exact h c hc

/-- The bytes of a block write, and every other offset as before. -/
theorem read_writeAll (bs : List Byte) (m : Memory) (a a' : Nat) :
    (m.writeAll a bs).read a' = if h : a ≤ a' ∧ a' - a < bs.length then some bs[a' - a] else m.read a' := by
  induction bs generalizing m a with
  | nil => simp [writeAll]
  | cons b bs ih =>
    rw [writeAll, ih, read_write]
    by_cases h0 : a' = a
    · subst h0; simp
    · by_cases h1 : a + 1 ≤ a' ∧ a' - (a + 1) < bs.length
      · have h2 : a ≤ a' ∧ a' - a < (b :: bs).length := by simp only [List.length_cons]; omega
        rw [dif_pos h1, dif_pos h2]
        have h3 : a' - a = a' - (a + 1) + 1 := by omega
        simp [h3]
      · have h2 : ¬ (a ≤ a' ∧ a' - a < (b :: bs).length) := by simp only [List.length_cons]; omega
        rw [dif_neg h1, dif_neg h2, if_neg h0]

/-- A block write keeps the canonical form. -/
theorem wf_writeAll {m : Memory} (h : m.wf) (a : Nat) (bs : List Byte) : (m.writeAll a bs).wf := by
  induction bs generalizing m a with
  | nil => exact h
  | cons b bs ih => exact ih (wf_write h a b) (a + 1)

/-- What it is for bytes to stand in a memory, one byte at a time. -/
theorem holds_iff (m : Memory) (a : Nat) (bs : List Byte) :
    m.Holds a bs ↔ ∀ k (h : k < bs.length), m.read (a + k) = some bs[k] :=
  ⟨fun h k hk => h ⟨k, hk⟩, fun h k => h k k.isLt⟩

theorem holds_cons (m : Memory) (a : Nat) (b : Byte) (bs : List Byte) :
    m.Holds a (b :: bs) ↔ m.read a = some b ∧ m.Holds (a + 1) bs := by
  simp only [holds_iff]
  constructor
  · intro h
    refine ⟨h 0 (by simp), fun k hk => ?_⟩
    have := h (k + 1) (by simpa using hk)
    rwa [show a + (k + 1) = a + 1 + k by omega] at this
  · rintro ⟨h0, h⟩ k hk
    cases k with
    | zero => exact h0
    | succ k =>
      have := h k (by simpa using hk)
      rwa [show a + 1 + k = a + (k + 1) by omega] at this

theorem holds_nil (m : Memory) (a : Nat) : m.Holds a [] := fun k => k.elim0

theorem holds_append (m : Memory) (a : Nat) (bs cs : List Byte) :
    m.Holds a (bs ++ cs) ↔ m.Holds a bs ∧ m.Holds (a + bs.length) cs := by
  induction bs generalizing a with
  | nil => exact ⟨fun h => ⟨holds_nil m a, h⟩, fun h => h.2⟩
  | cons b bs ih =>
    rw [List.cons_append, holds_cons, holds_cons, ih, List.length_cons, and_assoc,
      show a + 1 + bs.length = a + (bs.length + 1) by omega]

end Sys2Proof.Machine.Memory
end

