-- ==== Sys2Proof/Laws/PerInstr.lean ====
section
/-! SUPPORT. What holds of every instruction as syntax, one lemma per constructor (LAWS.json). -/
namespace Sys2Proof.Laws.EncodeLength

/-- An encoding takes the bytes its form has, whatever the operands (R81, R82, R83). -/
def Statement (i : Instr) : Prop := (encode i).length = i.bytes

theorem run (len : Nat) : Statement (.run len) := rfl

theorem lit (pad : BitVec 6) (value : Byte) : Statement (.lit pad value) := rfl

theorem cref (index : Fin 64) : Statement (.cref index) := rfl

theorem delta (diff : Int) : Statement (.delta diff) := rfl

theorem hdr (width height : Word) : Statement (.hdr width height) := rfl

theorem ftr : Statement .ftr := rfl

end Sys2Proof.Laws.EncodeLength
end

