-- ==== Sys2Proof/Laws/Pixels.lean ====
section
/-!
SUPPORT. The pixel_buffer_writer: what appending `k` pixels leaves in the state (41_units.md R136, R140).
-/
namespace Sys2Proof.Machine

/-- The offset of pixel `n + j` when it fits in PixMem. -/
theorem toNat_add_one {w : Word} {n : Nat} (h : w.toNat + (n + 1) ≤ 2 ^ 32 - 1) :
    (w + 1#32).toNat = w.toNat + 1 := by
  rw [BitVec.toNat_add]; simp; omega

theorem toNat_add_ofNat {w : Word} {k : Nat} (h : w.toNat + k ≤ 2 ^ 32 - 1) :
    (w + BitVec.ofNat 32 k).toNat = w.toNat + k := by
  rw [BitVec.toNat_add, BitVec.toNat_ofNat]; omega

namespace State

/-- Appending pixels writes PixMem and `out_count` and nothing else. -/
theorem appendPixels_eq (k : Nat) (v : Byte) (s : State) :
    appendPixels k v s =
      { s with pixMem := (appendPixels k v s).pixMem, outCount := s.outCount + BitVec.ofNat 32 k } := by
  induction k generalizing s with
  | zero => simp [appendPixels]
  | succ k ih =>
    have hk : s.outCount + 1#32 + BitVec.ofNat 32 k = s.outCount + BitVec.ofNat 32 (k + 1) := by
      rw [BitVec.add_assoc]; congr 1; apply BitVec.eq_of_toNat_eq; simp [BitVec.toNat_add]; omega
    rw [appendPixels, ih]
    simp only [appendPixel, hk]

/-- The pixels land at the next `k` offsets and every other offset is as before. -/
theorem read_appendPixels {k : Nat} {v : Byte} {s : State} (h : s.outCount.toNat + k ≤ 2 ^ 32 - 1) (a : Nat) :
    (appendPixels k v s).pixMem.read a =
      if s.outCount.toNat ≤ a ∧ a < s.outCount.toNat + k then some v else s.pixMem.read a := by
  induction k generalizing s with
  | zero => simp [appendPixels]
  | succ k ih =>
    have h1 : (s.appendPixel v).outCount.toNat = s.outCount.toNat + 1 := toNat_add_one (n := k) h
    rw [appendPixels, ih (by rw [h1]; omega), h1, appendPixel_pixMem, Memory.read_write]
    split <;> split <;> first | rfl | omega | (split <;> first | rfl | omega)

/-- Appending inside a memory's size keeps its canonical form and its bound. -/
theorem legal_appendPixels {k size : Nat} {v : Byte} {s : State} (hs : size ≤ 2 ^ 32 - 1)
    (h : s.outCount.toNat + k ≤ size) (hw : s.pixMem.wf) (hb : ∀ c ∈ s.pixMem, c.1 < size) :
    (appendPixels k v s).pixMem.wf ∧ ∀ c ∈ (appendPixels k v s).pixMem, c.1 < size := by
  induction k generalizing s with
  | zero => exact ⟨hw, hb⟩
  | succ k ih =>
    have h1 : (s.appendPixel v).outCount.toNat = s.outCount.toNat + 1 := toNat_add_one (n := k) (by omega)
    refine ih (by rw [h1]; omega) (Memory.wf_write hw _ _) (Memory.bound_write hb (by omega) _)

@[simp] theorem appendPixels_cfg (k : Nat) (v : Byte) (s : State) : (appendPixels k v s).cfg = s.cfg := by
  rw [appendPixels_eq]
@[simp] theorem appendPixels_phase (k : Nat) (v : Byte) (s : State) : (appendPixels k v s).phase = s.phase := by
  rw [appendPixels_eq]
@[simp] theorem appendPixels_prev (k : Nat) (v : Byte) (s : State) : (appendPixels k v s).prev = s.prev := by
  rw [appendPixels_eq]
@[simp] theorem appendPixels_ptr (k : Nat) (v : Byte) (s : State) : (appendPixels k v s).ptr = s.ptr := by
  rw [appendPixels_eq]
@[simp] theorem appendPixels_tokenEnd (k : Nat) (v : Byte) (s : State) :
    (appendPixels k v s).tokenEnd = s.tokenEnd := by rw [appendPixels_eq]
@[simp] theorem appendPixels_cache (k : Nat) (v : Byte) (s : State) : (appendPixels k v s).cache = s.cache := by
  rw [appendPixels_eq]
@[simp] theorem appendPixels_outCount (k : Nat) (v : Byte) (s : State) :
    (appendPixels k v s).outCount = s.outCount + BitVec.ofNat 32 k := by rw [appendPixels_eq]
@[simp] theorem appendPixels_width (k : Nat) (v : Byte) (s : State) : (appendPixels k v s).width = s.width := by
  rw [appendPixels_eq]
@[simp] theorem appendPixels_height (k : Nat) (v : Byte) (s : State) :
    (appendPixels k v s).height = s.height := by rw [appendPixels_eq]
@[simp] theorem appendPixels_errCode (k : Nat) (v : Byte) (s : State) :
    (appendPixels k v s).errCode = s.errCode := by rw [appendPixels_eq]
@[simp] theorem appendPixels_errOffset (k : Nat) (v : Byte) (s : State) :
    (appendPixels k v s).errOffset = s.errOffset := by rw [appendPixels_eq]
@[simp] theorem appendPixels_streamLen (k : Nat) (v : Byte) (s : State) :
    (appendPixels k v s).streamLen = s.streamLen := by rw [appendPixels_eq]
@[simp] theorem appendPixels_inMem (k : Nat) (v : Byte) (s : State) : (appendPixels k v s).inMem = s.inMem := by
  rw [appendPixels_eq]
@[simp] theorem appendPixels_host (k : Nat) (v : Byte) (s : State) : (appendPixels k v s).host = s.host := by
  rw [appendPixels_eq]

end State

end Sys2Proof.Machine
end

