-- ==== Sys2Proof/Laws/Runs.lean ====
section
/-! SUPPORT. Runs of many steps, one step at a time. -/
namespace Sys2Proof.Machine

@[simp] theorem runs_zero (s : State) : runs 0 s = .next s := rfl

theorem runs_succ_of_next {s t : State} (h : step s = .next t) (k : Nat) : runs (k + 1) s = runs k t := by
  simp only [runs, Host.Core.run]
  rw [show Sys2Proof.core.step s = .next t from h]

theorem runs_succ_of_fault {s : State} {r : Fault} (h : step s = .fault r) (k : Nat) :
    runs (k + 1) s = .fault r := by
  simp only [runs, Host.Core.run]
  rw [show Sys2Proof.core.step s = .fault r from h]; rfl

theorem runs_succ_of_refused {s : State} {r : Refusal} (h : step s = .refused r) (k : Nat) :
    runs (k + 1) s = .refused r := by
  simp only [runs, Host.Core.run]
  rw [show Sys2Proof.core.step s = .refused r from h]; rfl

/-- A run that answers a next state took a first step that did. -/
theorem runs_succ_cases {s u : State} {k : Nat} (h : runs (k + 1) s = .next u) :
    ∃ t, step s = .next t ∧ runs k t = .next u := by
  cases hs : step s with
  | next t => exact ⟨t, rfl, by rw [← h, runs_succ_of_next hs]⟩
  | fault r => rw [runs_succ_of_fault hs] at h; cases h
  | refused r => rw [runs_succ_of_refused hs] at h; cases h

/-- Runs compose. -/
theorem runs_add {s t : State} {j : Nat} (h : runs j s = .next t) (k : Nat) : runs (j + k) s = runs k t := by
  induction j generalizing s with
  | zero => cases h; rw [Nat.zero_add]
  | succ j ih =>
    obtain ⟨u, hu, hr⟩ := runs_succ_cases h
    rw [show j + 1 + k = j + k + 1 by omega, runs_succ_of_next hu, ih hr]

/-- A property that every step keeps holds after every run. -/
theorem runs_keep {P : State → Prop} (hP : ∀ s t, P s → step s = .next t → P t) {k : Nat} {s t : State}
    (hs : P s) (h : runs k s = .next t) : P t := by
  induction k generalizing s with
  | zero => cases h; exact hs
  | succ k ih =>
    obtain ⟨u, hu, hr⟩ := runs_succ_cases h
    exact ih (hP s u hs hu) hr

end Sys2Proof.Machine
end

