-- ==== Sys2Proof/Laws/Step.lean ====
section
/-!
SUPPORT. What the shared operations, the fetch and one engine step can do, said once: later proofs cite these
instead of unfolding.
-/
namespace Sys2Proof.Machine

/-! ### The shared checks of the meanings -/

/-- A token's room check answers its effect or OUTPUT_OVERFLOW at `ptr`. -/
theorem withRoom_cases (k : Nat) (go : State → State) (s : State) :
    (s.Room k ∧ withRoom k go s = .next (go s)) ∨
    (¬ s.Room k ∧ withRoom k go s = .next (s.raiseError .outputOverflow s.ptr)) := by
  by_cases h : s.Room k
  · exact .inl ⟨h, if_pos h⟩
  · exact .inr ⟨h, if_neg h⟩

/-- A two-byte token's check answers the rest of its meaning or TRUNCATED_TOKEN at `ptr`. -/
theorem withSecondByte_cases (go : State → Host.Outcome State Fault Refusal) (s : State) :
    (s.SecondByteInside ∧ withSecondByte go s = go s) ∨
    (¬ s.SecondByteInside ∧ withSecondByte go s = .next (s.raiseError .truncatedToken s.ptr)) := by
  by_cases h : s.SecondByteInside
  · exact .inl ⟨h, if_pos h⟩
  · exact .inr ⟨h, if_neg h⟩

theorem withRoom_of_room {k : Nat} {s : State} (go : State → State) (h : s.Room k) :
    withRoom k go s = .next (go s) := if_pos h

theorem withRoom_of_not_room {k : Nat} {s : State} (go : State → State) (h : ¬ s.Room k) :
    withRoom k go s = .next (s.raiseError .outputOverflow s.ptr) := if_neg h

theorem withSecondByte_of_inside {s : State} (go : State → Host.Outcome State Fault Refusal)
    (h : s.SecondByteInside) : withSecondByte go s = go s := if_pos h

theorem withSecondByte_of_not_inside {s : State} (go : State → Host.Outcome State Fault Refusal)
    (h : ¬ s.SecondByteInside) : withSecondByte go s = .next (s.raiseError .truncatedToken s.ptr) := if_neg h

/-- The sum of the delta_accumulator is taken modulo 256 (R137). -/
theorem accumulate_toNat (prev : Byte) (d : Int) :
    ((accumulate prev d).toNat : Int) = ((prev.toNat : Int) + d) % 256 := by
  rw [accumulate, BitVec.toNat_ofInt]
  omega

/-- `end = N − 8` as numbers, for a stream that holds a header (R113). -/
theorem footerBound_toNat {n : Word} (h : 12 ≤ n.toNat) : (footerBound n).toNat = n.toNat - 8 := by
  have := n.isLt
  simp only [footerBound, footerLen, BitVec.toNat_sub, BitVec.toNat_ofNat]
  omega

/-! ### The meanings -/

/-- RUN: its pixels, or one of its two errors, in the order of R245. -/
theorem execRun_cases (len : Nat) (s : State) :
    (s.SecondByteInside ∧ s.Room len ∧
      execRun len s = .next ((State.appendPixels len s.prev s).advance 2#32)) ∨
    (¬ s.SecondByteInside ∧ execRun len s = .next (s.raiseError .truncatedToken s.ptr)) ∨
    (s.SecondByteInside ∧ ¬ s.Room len ∧ execRun len s = .next (s.raiseError .outputOverflow s.ptr)) := by
  rcases withSecondByte_cases
    (withRoom len fun s => (s.appendPixels len s.prev).advance 2#32) s with ⟨h, e⟩ | ⟨h, e⟩
  · rcases withRoom_cases len (fun s => (State.appendPixels len s.prev s).advance 2#32) s with ⟨h', e'⟩ | ⟨h', e'⟩
    · exact .inl ⟨h, h', e.trans e'⟩
    · exact .inr (.inr ⟨h, h', e.trans e'⟩)
  · exact .inr (.inl ⟨h, e⟩)

/-- The effect of a LIT (R163). -/
abbrev State.afterLit (s : State) (v : Byte) : State :=
  (((s.fill v).appendPixel v).setPrev v).advance 2#32

/-- The effect of a one-byte token that appends `v` (R164, R165). -/
abbrev State.afterOne (s : State) (v : Byte) : State := ((s.appendPixel v).setPrev v).advance 1#32

/-- LIT: its effect, or one of its two errors, in the order of R245. -/
theorem execLit_cases (pad : BitVec 6) (v : Byte) (s : State) :
    (s.SecondByteInside ∧ s.Room 1 ∧ execLit pad v s = .next (s.afterLit v)) ∨
    (¬ s.SecondByteInside ∧ execLit pad v s = .next (s.raiseError .truncatedToken s.ptr)) ∨
    (s.SecondByteInside ∧ ¬ s.Room 1 ∧ execLit pad v s = .next (s.raiseError .outputOverflow s.ptr)) := by
  rcases withSecondByte_cases (withRoom 1 fun s => s.afterLit v) s with ⟨h, e⟩ | ⟨h, e⟩
  · rcases withRoom_cases 1 (fun s => s.afterLit v) s with ⟨h', e'⟩ | ⟨h', e'⟩
    · exact .inl ⟨h, h', e.trans e'⟩
    · exact .inr (.inr ⟨h, h', e.trans e'⟩)
  · exact .inr (.inl ⟨h, e⟩)

/-- CREF: its effect, or one of its two errors, in the order of R245. -/
theorem execCref_cases (i : Fin 64) (s : State) :
    ((s.lookup i).valid = true ∧ s.Room 1 ∧ execCref i s = .next (s.afterOne (s.lookup i).value)) ∨
    ((s.lookup i).valid = false ∧ execCref i s = .next (s.raiseError .unresolvedCacheRef s.ptr)) ∨
    ((s.lookup i).valid = true ∧ ¬ s.Room 1 ∧ execCref i s = .next (s.raiseError .outputOverflow s.ptr)) := by
  by_cases hv : (s.lookup i).valid = true
  · have e : execCref i s = withRoom 1 (fun s => s.afterOne (s.lookup i).value) s := if_pos hv
    rcases withRoom_cases 1 (fun s => s.afterOne (s.lookup i).value) s with ⟨h', e'⟩ | ⟨h', e'⟩
    · exact .inl ⟨hv, h', e.trans e'⟩
    · exact .inr (.inr ⟨hv, h', e.trans e'⟩)
  · exact .inr (.inl ⟨by simpa using hv, if_neg hv⟩)

/-- DELTA: its effect, or its one error. -/
theorem execDelta_cases (d : Int) (s : State) :
    (s.Room 1 ∧ execDelta d s = .next (s.afterOne (accumulate s.prev d))) ∨
    (¬ s.Room 1 ∧ execDelta d s = .next (s.raiseError .outputOverflow s.ptr)) :=
  withRoom_cases 1 (fun s => s.afterOne (accumulate s.prev d)) s

/-- HDR: its load, or BAD_LENGTH. -/
theorem execHdr_cases (w h : Word) (s : State) :
    (s.LengthOk ∧ execHdr w h s = .next (s.loadHeader w h)) ∨
    (¬ s.LengthOk ∧ execHdr w h s = .next (s.raiseError .badLength 0#32)) := by
  by_cases hl : s.LengthOk
  · exact .inl ⟨hl, if_pos hl⟩
  · exact .inr ⟨hl, if_neg hl⟩

/-! ### Reading InMem -/

theorem State.inByte_eq {s : State} {a : Nat} {b : Byte} (ha : a < s.cfg.inMemSize)
    (hb : s.inMem.read a = some b) : s.inByte a = .ok b := by
  simp [inByte, ha, hb]

/-- Reading one byte: the byte, nothing written there, or no such offset. -/
theorem State.inByte_cases (s : State) (a : Nat) :
    (∃ b, a < s.cfg.inMemSize ∧ s.inMem.read a = some b ∧ s.inByte a = .ok b) ∨
    (a < s.cfg.inMemSize ∧ s.inMem.read a = none ∧ s.inByte a = .error (.refused (.inMemUnwritten a))) ∨
    (s.cfg.inMemSize ≤ a ∧ s.inByte a = .error (.fault (.engineOutsideInMem a))) := by
  by_cases ha : a < s.cfg.inMemSize
  · cases hb : s.inMem.read a with
    | none => exact .inr (.inl ⟨ha, rfl, by simp [inByte, ha, hb]⟩)
    | some b => exact .inl ⟨b, ha, rfl, inByte_eq ha hb⟩
  · exact .inr (.inr ⟨by omega, by simp [inByte, ha]⟩)

theorem State.inBytes_eq {s : State} {a : Nat} {bs : List Byte} (ha : a + bs.length ≤ s.cfg.inMemSize)
    (hb : s.inMem.Holds a bs) : s.inBytes a bs.length = .ok bs := by
  induction bs generalizing a with
  | nil => rfl
  | cons b bs ih =>
    obtain ⟨h0, h1⟩ := (Memory.holds_cons ..).mp hb
    simp only [List.length_cons] at ha
    simp only [List.length_cons, inBytes, inByte_eq (show a < s.cfg.inMemSize by omega) h0,
      ih (show a + 1 + bs.length ≤ s.cfg.inMemSize by omega) h1]

/-- Reading `n` bytes: the bytes, or an offset among them that is unwritten or does not exist. -/
theorem State.inBytes_cases (s : State) (a n : Nat) :
    (∃ bs, bs.length = n ∧ s.inMem.Holds a bs ∧ s.inBytes a n = .ok bs) ∨
    (∃ k, k < n ∧ s.inMem.read (a + k) = none ∧
      s.inBytes a n = .error (.refused (.inMemUnwritten (a + k)))) ∨
    (∃ k, k < n ∧ s.cfg.inMemSize ≤ a + k ∧ s.inBytes a n = .error (.fault (.engineOutsideInMem (a + k)))) := by
  induction n generalizing a with
  | zero => exact .inl ⟨[], rfl, s.inMem.holds_nil a, rfl⟩
  | succ n ih =>
    rcases s.inByte_cases a with ⟨b, _, hb, e⟩ | ⟨_, hb, e⟩ | ⟨ha, e⟩
    · rcases ih (a + 1) with ⟨bs, hl, hh, e'⟩ | ⟨k, hk, hn, e'⟩ | ⟨k, hk, hn, e'⟩
      · exact .inl ⟨b :: bs, by simp [hl], (Memory.holds_cons ..).mpr ⟨hb, hh⟩, by simp [inBytes, e, e']⟩
      · rw [show a + 1 + k = a + (k + 1) by omega] at hn e'
        exact .inr (.inl ⟨k + 1, by omega, hn, by simp [inBytes, e, e']⟩)
      · rw [show a + 1 + k = a + (k + 1) by omega] at hn e'
        exact .inr (.inr ⟨k + 1, by omega, hn, by simp [inBytes, e, e']⟩)
    · exact .inr (.inl ⟨0, by omega, hb, by simp [inBytes, e]⟩)
    · exact .inr (.inr ⟨0, by omega, ha, by simp [inBytes, e]⟩)

/-! ### Fetching -/

/-- What a token's first byte, and its second where it has one inside the region, make the next step do. -/
theorem State.fetchToken_cases (s : State) :
    (∃ b0, s.inMem.read s.ptr.toNat = some b0 ∧ b0.toNat < 0x80 ∧
      s.fetchToken = .run (if b0.toNat < 0x40 then .cref (crefIndex b0) else .delta (deltaDiff b0))) ∨
    (∃ b0 b1, s.inMem.read s.ptr.toNat = some b0 ∧ s.inMem.read (s.ptr.toNat + 1) = some b1 ∧
      0x80 ≤ b0.toNat ∧ s.SecondByteInside ∧
      s.fetchToken = .run (if b0.toNat < 0xC0 then .run (runLength b0 b1) else .lit (lowSix b0) b1)) ∨
    (∃ b0, s.inMem.read s.ptr.toNat = some b0 ∧ 0x80 ≤ b0.toNat ∧ ¬ s.SecondByteInside ∧
      s.fetchToken = .raise .truncatedToken s.ptr) ∨
    (∃ a, (a = s.ptr.toNat ∨ a = s.ptr.toNat + 1 ∧ s.SecondByteInside) ∧
      ((s.inMem.read a = none ∧ s.fetchToken = .halt (.refused (.inMemUnwritten a))) ∨
        (s.cfg.inMemSize ≤ a ∧ s.fetchToken = .halt (.fault (.engineOutsideInMem a))))) := by
  rcases s.inByte_cases s.ptr.toNat with ⟨b0, _, hb, e⟩ | ⟨_, hb, e⟩ | ⟨ha, e⟩
  · have h2 : (tagOf b0).bytes = 2 ↔ 0x80 ≤ b0.toNat := by rw [tagOf_bytes]; split <;> simp_all
    by_cases h80 : 0x80 ≤ b0.toNat
    · by_cases hs : s.SecondByteInside
      · rcases s.inByte_cases (s.ptr.toNat + 1) with ⟨b1, _, hb1, e1⟩ | ⟨_, hb1, e1⟩ | ⟨ha1, e1⟩
        · refine .inr (.inl ⟨b0, b1, hb, hb1, h80, hs, ?_⟩)
          rw [fetchToken, e]
          simp only [if_pos (And.intro (h2.mpr h80) hs), e1]
          simp only [decoded, decode, decodeToken, tagOf_eq,
            if_neg (show ¬ b0.toNat < 0x40 by omega), if_neg (show ¬ b0.toNat < 0x80 by omega)]
          by_cases hc : b0.toNat < 0xC0 <;> simp only [hc, if_true, if_false]
        · refine .inr (.inr (.inr ⟨_, .inr ⟨rfl, hs⟩, .inl ⟨hb1, ?_⟩⟩))
          simp only [fetchToken, e, e1, if_pos (And.intro (h2.mpr h80) hs)]
        · refine .inr (.inr (.inr ⟨_, .inr ⟨rfl, hs⟩, .inr ⟨ha1, ?_⟩⟩))
          simp only [fetchToken, e, e1, if_pos (And.intro (h2.mpr h80) hs)]
      · refine .inr (.inr (.inl ⟨b0, hb, h80, hs, ?_⟩))
        rw [fetchToken, e]
        simp only [if_neg (fun h : _ ∧ _ => hs h.2), decoded, decode, decodeToken, tagOf_eq,
          if_neg (show ¬ b0.toNat < 0x40 by omega), if_neg (show ¬ b0.toNat < 0x80 by omega)]
        by_cases hc : b0.toNat < 0xC0 <;> simp only [hc, if_true, if_false, errorOf]
    · refine .inl ⟨b0, hb, by omega, ?_⟩
      rw [fetchToken, e]
      simp only [if_neg (fun h : _ ∧ _ => h80 (h2.mp h.1))]
      simp only [decoded, decode, decodeToken, tagOf_eq,
        if_pos (show b0.toNat < 0x80 by omega)]
      by_cases hc : b0.toNat < 0x40 <;> simp only [hc, if_true, if_false]
  · exact .inr (.inr (.inr ⟨_, .inl rfl, .inl ⟨hb, by simp only [fetchToken, e]⟩⟩))
  · exact .inr (.inr (.inr ⟨_, .inl rfl, .inr ⟨ha, by simp only [fetchToken, e]⟩⟩))

/-- What the header step's reads make the next step do. -/
theorem State.fetchHeader_cases (s : State) :
    (¬ s.LengthOk ∧ s.fetchHeader = .raise .badLength 0#32) ∨
    (s.LengthOk ∧ ∃ ms, ms.length = 4 ∧ s.inMem.Holds 0 ms ∧ ms ≠ magicBytes ∧
      s.fetchHeader = .raise .badMagic 0#32) ∨
    (s.LengthOk ∧ ∃ w0 w1 w2 w3 h0 h1 h2 h3,
      s.inMem.Holds 0 (magicBytes ++ [w0, w1, w2, w3, h0, h1, h2, h3]) ∧
      s.fetchHeader = .run (.hdr (be32 w0 w1 w2 w3) (be32 h0 h1 h2 h3))) ∨
    (s.LengthOk ∧ ∃ a, a < 12 ∧
      ((s.inMem.read a = none ∧ s.fetchHeader = .halt (.refused (.inMemUnwritten a))) ∨
        (s.cfg.inMemSize ≤ a ∧ s.fetchHeader = .halt (.fault (.engineOutsideInMem a))))) := by
  by_cases hl : s.LengthOk
  · rcases s.inBytes_cases 0 4 with ⟨ms, hlen, hh, e⟩ | ⟨k, hk, hn, e⟩ | ⟨k, hk, hn, e⟩
    · obtain ⟨m0, m1, m2, m3, rfl⟩ : ∃ m0 m1 m2 m3, ms = [m0, m1, m2, m3] := by
        match ms, hlen with
        | [m0, m1, m2, m3], _ => exact ⟨m0, m1, m2, m3, rfl⟩
      by_cases hm : [m0, m1, m2, m3] = magicBytes
      · rcases s.inBytes_cases 4 8 with ⟨ds, hlen', hh', e'⟩ | ⟨k, hk, hn, e'⟩ | ⟨k, hk, hn, e'⟩
        · match ds, hlen' with
          | [w0, w1, w2, w3, h0, h1, h2, h3], _ =>
            refine .inr (.inr (.inl ⟨hl, w0, w1, w2, w3, h0, h1, h2, h3, ?_, ?_⟩))
            · rw [← hm]; exact (Memory.holds_append ..).mpr ⟨hh, hh'⟩
            · simp only [fetchHeader, if_pos hl, e, if_pos hm, e', decoded, decode, decodeHeader, decodeDims,
                List.cons_append, List.nil_append]
        · exact .inr (.inr (.inr ⟨hl, _, by omega, .inl ⟨hn, by
            simp only [fetchHeader, if_pos hl, e, if_pos hm, e']⟩⟩))
        · exact .inr (.inr (.inr ⟨hl, _, by omega, .inr ⟨hn, by
            simp only [fetchHeader, if_pos hl, e, if_pos hm, e']⟩⟩))
      · exact .inr (.inl ⟨hl, _, hlen, hh, hm, by
          simp only [fetchHeader, if_pos hl, e, if_neg hm, decoded, decode, decodeHeader, errorOf]⟩)
    · exact .inr (.inr (.inr ⟨hl, _, by omega, .inl ⟨hn, by simp only [fetchHeader, if_pos hl, e]⟩⟩))
    · exact .inr (.inr (.inr ⟨hl, _, by omega, .inr ⟨hn, by simp only [fetchHeader, if_pos hl, e]⟩⟩))
  · exact .inl ⟨hl, if_neg hl⟩

/-! ### One engine step -/

/-- Where no pass runs, the engine keeps its state (R255). -/
theorem engineStep_of_not_busy {s : State} (h : ¬ s.Busy) : engineStep s = .next s := by
  unfold State.Busy at h
  cases hp : s.phase <;> simp_all [engineStep, State.fetch, perform]

theorem engineStep_header {s : State} (h : s.phase = .header) :
    engineStep s = perform s.fetchHeader s := by
  simp only [engineStep, State.fetch, h]

/-- At the bound the pass finishes (R160). -/
theorem engineStep_bound {s : State} (h : s.phase = .tokens) (hb : s.tokenEnd.toNat ≤ s.ptr.toNat) :
    engineStep s = .next s.finish := by
  simp only [engineStep, State.fetch, h, if_pos hb, decoded, decode, perform, exec, execFtr]

theorem engineStep_token {s : State} (h : s.phase = .tokens) (hb : s.ptr.toNat < s.tokenEnd.toNat) :
    engineStep s = perform s.fetchToken s := by
  simp only [engineStep, State.fetch, h, if_neg (show ¬ s.tokenEnd.toNat ≤ s.ptr.toNat by omega)]

/-- Everything an engine step can do where it answers a next state: one case per effect, with the bytes that
selected it. -/
theorem engineStep_cases {s t : State} (h : engineStep s = .next t) :
    (¬ s.Busy ∧ t = s) ∨
    (s.phase = .header ∧ ¬ s.LengthOk ∧ t = s.raiseError .badLength 0#32) ∨
    (s.phase = .header ∧ s.LengthOk ∧
      (∃ ms, ms.length = 4 ∧ s.inMem.Holds 0 ms ∧ ms ≠ magicBytes) ∧ t = s.raiseError .badMagic 0#32) ∨
    (s.phase = .header ∧ s.LengthOk ∧ ∃ w0 w1 w2 w3 h0 h1 h2 h3,
      s.inMem.Holds 0 (magicBytes ++ [w0, w1, w2, w3, h0, h1, h2, h3]) ∧
      t = s.loadHeader (be32 w0 w1 w2 w3) (be32 h0 h1 h2 h3)) ∨
    (s.phase = .tokens ∧ s.tokenEnd.toNat ≤ s.ptr.toNat ∧ t = s.finish) ∨
    (s.phase = .tokens ∧ s.ptr.toNat < s.tokenEnd.toNat ∧ ∃ b0, s.inMem.read s.ptr.toNat = some b0 ∧
      ((b0.toNat < 0x40 ∧
          (((s.lookup (crefIndex b0)).valid = false ∧ t = s.raiseError .unresolvedCacheRef s.ptr) ∨
            ((s.lookup (crefIndex b0)).valid = true ∧ ¬ s.Room 1 ∧ t = s.raiseError .outputOverflow s.ptr) ∨
            ((s.lookup (crefIndex b0)).valid = true ∧ s.Room 1 ∧
              t = s.afterOne (s.lookup (crefIndex b0)).value))) ∨
        (0x40 ≤ b0.toNat ∧ b0.toNat < 0x80 ∧
          ((¬ s.Room 1 ∧ t = s.raiseError .outputOverflow s.ptr) ∨
            (s.Room 1 ∧ t = s.afterOne (accumulate s.prev (deltaDiff b0))))) ∨
        (0x80 ≤ b0.toNat ∧ ¬ s.SecondByteInside ∧ t = s.raiseError .truncatedToken s.ptr) ∨
        (s.SecondByteInside ∧ ∃ b1, s.inMem.read (s.ptr.toNat + 1) = some b1 ∧
          ((0x80 ≤ b0.toNat ∧ b0.toNat < 0xC0 ∧
              ((¬ s.Room (runLength b0 b1) ∧ t = s.raiseError .outputOverflow s.ptr) ∨
                (s.Room (runLength b0 b1) ∧
                  t = (State.appendPixels (runLength b0 b1) s.prev s).advance 2#32))) ∨
            (0xC0 ≤ b0.toNat ∧
              ((¬ s.Room 1 ∧ t = s.raiseError .outputOverflow s.ptr) ∨
                (s.Room 1 ∧ t = s.afterLit b1))))))) := by
  by_cases hbusy : s.Busy
  · rcases hbusy with hp | hp
    · rw [engineStep_header hp] at h
      rcases s.fetchHeader_cases with ⟨hl, e⟩ | ⟨hl, ms, h4, hh, hm, e⟩ |
        ⟨hl, w0, w1, w2, w3, h0, h1, h2, h3, hh, e⟩ | ⟨hl, a, ha, ⟨_, e⟩ | ⟨_, e⟩⟩ <;> rw [e] at h <;> simp only [perform] at h
      · exact .inr (.inl ⟨hp, hl, by simpa using h.symm⟩)
      · exact .inr (.inr (.inl ⟨hp, hl, ⟨ms, h4, hh, hm⟩, by simpa using h.symm⟩))
      · refine .inr (.inr (.inr (.inl ⟨hp, hl, w0, w1, w2, w3, h0, h1, h2, h3, hh, ?_⟩)))
        simpa [exec, execHdr, if_pos hl] using h.symm
      · simp [Halt.outcome] at h
      · simp [Halt.outcome] at h
    · by_cases hb : s.tokenEnd.toNat ≤ s.ptr.toNat
      · rw [engineStep_bound hp hb] at h
        exact .inr (.inr (.inr (.inr (.inl ⟨hp, hb, by simpa using h.symm⟩))))
      · have hlt : s.ptr.toNat < s.tokenEnd.toNat := by omega
        rw [engineStep_token hp hlt] at h
        refine .inr (.inr (.inr (.inr (.inr ⟨hp, hlt, ?_⟩))))
        rcases s.fetchToken_cases with ⟨b0, hb0, h80, e⟩ | ⟨b0, b1, hb0, hb1, h80, hs, e⟩ |
          ⟨b0, hb0, h80, hs, e⟩ | ⟨a, _, ⟨_, e⟩ | ⟨_, e⟩⟩ <;> rw [e] at h <;> simp only [perform] at h
        · refine ⟨b0, hb0, ?_⟩
          by_cases h40 : b0.toNat < 0x40
          · refine .inl ⟨h40, ?_⟩
            simp only [if_pos h40, exec] at h
            rcases execCref_cases (crefIndex b0) s with ⟨hv, hr, e'⟩ | ⟨hv, e'⟩ | ⟨hv, hr, e'⟩ <;>
              rw [e'] at h <;> cases h
            · exact .inr (.inr ⟨hv, hr, rfl⟩)
            · exact .inl ⟨hv, rfl⟩
            · exact .inr (.inl ⟨hv, hr, rfl⟩)
          · refine .inr (.inl ⟨by omega, h80, ?_⟩)
            simp only [if_neg h40, exec] at h
            rcases execDelta_cases (deltaDiff b0) s with ⟨hr, e'⟩ | ⟨hr, e'⟩ <;> rw [e'] at h <;> cases h
            · exact .inr ⟨hr, rfl⟩
            · exact .inl ⟨hr, rfl⟩
        · refine ⟨b0, hb0, .inr (.inr (.inr ⟨hs, b1, hb1, ?_⟩))⟩
          by_cases hc0 : b0.toNat < 0xC0
          · refine .inl ⟨h80, hc0, ?_⟩
            simp only [if_pos hc0, exec] at h
            rcases execRun_cases (runLength b0 b1) s with ⟨_, hr, e'⟩ | ⟨hn, _⟩ | ⟨_, hr, e'⟩
            · rw [e'] at h; cases h; exact .inr ⟨hr, rfl⟩
            · exact absurd hs hn
            · rw [e'] at h; cases h; exact .inl ⟨hr, rfl⟩
          · refine .inr ⟨by omega, ?_⟩
            simp only [if_neg hc0, exec] at h
            rcases execLit_cases (lowSix b0) b1 s with ⟨_, hr, e'⟩ | ⟨hn, _⟩ | ⟨_, hr, e'⟩
            · rw [e'] at h; cases h; exact .inr ⟨hr, rfl⟩
            · exact absurd hs hn
            · rw [e'] at h; cases h; exact .inl ⟨hr, rfl⟩
        · exact ⟨b0, hb0, .inr (.inr (.inl ⟨h80, hs, by simpa using h.symm⟩))⟩
        · simp [Halt.outcome] at h
        · simp [Halt.outcome] at h
  · rw [engineStep_of_not_busy hbusy] at h
    exact .inl ⟨hbusy, by simpa using h.symm⟩

/-! ### One step -/

theorem step_nil {s : State} (h : s.host.agenda = []) : step s = engineStep s := by
  simp only [step, advanceOne, h]

theorem step_cons {s : State} {e : Event} {rest : List Event} (h : s.host.agenda = e :: rest) :
    step s = happen e (s.withAgenda rest) := by
  simp only [step, advanceOne, h]

theorem step_csrRead {s : State} {o : Nat} {rest : List Event}
    (h : s.host.agenda = .host (.csrRead 4 o) :: rest) (h4 : o % 4 = 0) (hl : o < 0x200) :
    step s = .next ((s.withAgenda rest).csrLoad o) :=
  (step_cons h).trans (csrAccess_ok (fun s => s.csrLoad o) _ h4 hl)

theorem step_csrWrite {s : State} {o : Nat} {w : Word} {rest : List Event}
    (h : s.host.agenda = .host (.csrWrite 4 o w) :: rest) (h4 : o % 4 = 0) (hl : o < 0x200) :
    step s = .next ((s.withAgenda rest).csrStore o w) :=
  (step_cons h).trans (csrAccess_ok (fun s => s.csrStore o w) _ h4 hl)

/-- Whose turn it is: the engine's, or the agenda's next event's. -/
theorem step_cases (s : State) :
    (s.host.agenda = [] ∧ step s = engineStep s) ∨
    (∃ rest, s.host.agenda = .engine :: rest ∧ step s = engineStep (s.withAgenda rest)) ∨
    (∃ rest, s.host.agenda = .powerOn :: rest ∧ step s = .next (s.withAgenda rest).powerOnReset) ∨
    (∃ op rest, s.host.agenda = .host op :: rest ∧ step s = hostAct op (s.withAgenda rest)) := by
  cases h : s.host.agenda with
  | nil => exact .inl ⟨rfl, step_nil h⟩
  | cons e rest =>
    cases e with
    | engine => exact .inr (.inl ⟨rest, rfl, step_cons h⟩)
    | powerOn => exact .inr (.inr (.inl ⟨rest, rfl, step_cons h⟩))
    | host op => exact .inr (.inr (.inr ⟨op, rest, rfl, step_cons h⟩))

end Sys2Proof.Machine
end

