-- ==== Sys2Proof/Tests/Slice0.lean ====
section
/-!
SUPPORT. Tests whose expected results come from the spec (95_test_vectors.md and the examples of its rules), and
for each statement with hypotheses a witness that meets them all: `witness_<statement>`.
-/
namespace Sys2Proof.Machine.Tests

open Sys2Proof Sys2Proof.Machine

/-! ### Small machines -/

/-- 32 bytes of InMem and `pix` pixels. -/
def tiny (pix : Nat) : Config := ⟨32, pix, 0, 0x1000, 0x2000⟩

/-- The stream `bs` loaded, no pass started. -/
def loaded (pix : Nat) (bs : List Byte) : State :=
  { State.powerOn (tiny pix) with
    streamLen := BitVec.ofNat 32 bs.length, inMem := Memory.writeAll [] 0 bs }

/-- The same at the header step. -/
def started (pix : Nat) (bs : List Byte) : State := { loaded pix bs with phase := .header }

/-- A whole stream: `HDR 0, 0`, the token bytes, `FTR`. -/
def streamOf (toks : List Byte) : List Byte := encode (.hdr 0#32 0#32) ++ toks ++ encode .ftr

/-- The pass over that stream at its first token. -/
def inTokens (pix : Nat) (toks : List Byte) : State :=
  { started pix (streamOf toks) with
    phase := .tokens, ptr := 12#32, tokenEnd := BitVec.ofNat 32 (12 + toks.length) }

/-- The pass over `LIT 10` and then `toks`, its LIT done, with a token of pixels written before `count`. -/
def afterLit (pix : Nat) (toks : List Byte) : State :=
  { inTokens pix ([0xC0#8, 0x0A#8] ++ toks) with
    ptr := 14#32, prev := 10#8, outCount := 1#32, cache := Cache.empty.fill 10#8, pixMem := [(0, 10#8)] }

/-- `s` with the host's next events. -/
def planned (s : State) (es : List Event) : State := { s with host := { s.host with agenda := es } }

/-- The next state, if there is one. -/
def went : Host.Outcome State Fault Refusal → Option State
  | .next t => some t
  | .fault _ => none
  | .refused _ => none

/-! ### WellFormed: an ill-formed term for each check, refused (R92) -/

theorem test_wf_run_too_long : (Instr.run 16384).wf = false := by decide
theorem test_wf_delta_too_high : (Instr.delta 32).wf = false := by decide
theorem test_wf_delta_too_low : (Instr.delta (-33)).wf = false := by decide
theorem test_assemble_refuses_out_of_range : assemble [.instr (.run 16384)] = none := by decide

/-! ### Decoding: words written out from the encodings -/

/-- R84: `10 HHHHHH LLLLLLLL`, 95 RUN-7: `84 00` is RUN 1024. -/
theorem test_decode_run : decode .token [0b10000100#8, 0b00000000#8] = .ok (.run 1024, []) := by decide
/-- R135: `BF FF` is RUN 16383. -/
theorem test_decode_run_max : decode .token [0b10111111#8, 0b11111111#8] = .ok (.run 16383, []) := by decide
/-- R85: `11 xxxxxx VVVVVVVV`, 95 LIT-3: `FF 0A` is LIT 10 with PAD 63. -/
theorem test_decode_lit : decode .token [0b11111111#8, 0b00001010#8] = .ok (.lit 63#6 10#8, []) := by decide
/-- R86: `00 IIIIII`, 95 CREF-3: `3F` is CREF 63, and the byte after it is the next token's. -/
theorem test_decode_cref : decode .token [0b00111111#8, 0xC0#8] = .ok (.cref 63, [0xC0#8]) := by decide
/-- R87: `01 EEEEEE`, R137: `61` is DELTA +1. -/
theorem test_decode_delta : decode .token [0b01100001#8] = .ok (.delta 1, []) := by decide
/-- R137: `40` is DELTA −32. -/
theorem test_decode_delta_min : decode .token [0b01000000#8] = .ok (.delta (-32), []) := by decide
/-- R81, 95 SRC-3: the header bytes of width 0x102 and height 3. -/
theorem test_decode_hdr :
    decode .preamble
        [0x66#8, 0x6D#8, 0x69#8, 0x66#8, 0#8, 0#8, 1#8, 2#8, 0#8, 0#8, 0#8, 3#8] =
      .ok (.hdr 0x102#32 3#32, []) := by decide
/-- R82, R114: any eight bytes are a footer. -/
theorem test_decode_ftr :
    decode .trailer [0xAA#8, 0xAA#8, 0xAA#8, 0xAA#8, 0xAA#8, 0xAA#8, 0xAA#8, 0xAA#8] = .ok (.ftr, []) := by
  decide
/-- 95 P1: the token bytes assemble and disassemble as listed. -/
theorem test_assemble_p1 :
    assemble [.instr (.lit 0#6 10#8), .instr (.cref 2), .instr (.lit 0#6 50#8), .instr (.delta 1),
      .instr (.cref 12)] = some [0xC0#8, 0x0A#8, 0x02#8, 0xC0#8, 0x32#8, 0x61#8, 0x0C#8] := by decide
theorem test_disassemble_cut_short :
    disassemble [0x02#8, 0x80#8, 0x03#8, 0xC0#8] = ([.cref 2, .run 3], [0xC0#8]) := by decide
/-- spec/opcode_table.json: the first byte of a token in bits 7 to 0, the magic in bits 31 to 0. -/
theorem test_table_words :
    decodeTableWord 16 0x0980 = some (.run 9) ∧ decodeTableWord 16 0xFFC5 = some (.lit 5#6 255#8) ∧
    decodeTableWord 8 0x3F = some (.cref 63) ∧ decodeTableWord 8 0x40 = some (.delta (-32)) ∧
    decodeTableWord 96 0x666D6966 = some (.hdr 0#32 0#32) ∧ decodeTableWord 64 1 = some .ftr := by decide

/-! ### Steps -/

/-- R162's example: prev 128, `80 09` at 14, out_count 1. -/
theorem test_run_example :
    (went (engineStep { afterLit 16 [0x80#8, 0x09#8] with prev := 128#8, pixMem := [(0, 128#8)] })).map
        (fun t => (t.pixMem, t.outCount, t.prev, t.ptr)) =
      some ((List.range 10).map (fun a => (a, 128#8)), 10#32, 128#8, 16#32) := by decide
/-- R141's corner case: L = 0 passes even when PixMem is full. -/
theorem test_run_zero_when_full :
    (went (engineStep (afterLit 1 [0x80#8, 0x00#8]))).map (fun t => (t.phase, t.outCount, t.ptr)) =
      some (.tokens, 1#32, 16#32) := by decide
/-- 95 ERR-9: `80 05` where four pixels fit raises OUTPUT_OVERFLOW at 14 and writes none. -/
theorem test_run_overflow :
    (went (engineStep (afterLit 4 [0x80#8, 0x05#8]))).map
        (fun t => (t.statusWord, t.errOffset, t.outCount, t.pixMem)) =
      some (0x54#32, 14#32, 1#32, [(0, 10#8)]) := by decide
/-- 95 LIT-3 and R132: the pad is ignored, and slot 2's 10 is overwritten by 11. -/
theorem test_lit_evicts :
    (went (engineStep (afterLit 16 [0xFF#8, 0x0B#8]))).map
        (fun t => (t.cache.get 2, t.pixMem, t.prev, t.ptr)) =
      some (⟨true, 11#8⟩, [(0, 10#8), (1, 11#8)], 11#8, 16#32) := by decide
/-- 95 ERR-10: a LIT that does not fit fills nothing. -/
theorem test_lit_overflow_fills_nothing :
    (went (engineStep (afterLit 1 [0xC0#8, 0x64#8]))).map
        (fun t => (t.statusWord, t.errOffset, t.cache.get 25, t.prev)) =
      some (0x54#32, 14#32, ⟨false, 0#8⟩, 10#8) := by decide
/-- R164's example, and 95 CREF-4: prev becomes the slot's value. -/
theorem test_cref_sets_prev :
    (went (engineStep { afterLit 16 [0x02#8] with prev := 100#8 })).map
        (fun t => (t.pixMem, t.outCount, t.prev, t.ptr)) =
      some ([(0, 10#8), (1, 10#8)], 2#32, 10#8, 15#32) := by decide
/-- 95 ERR-11: an empty slot is reported before a full PixMem. -/
theorem test_cref_empty_before_overflow :
    (went (engineStep (afterLit 1 [0x05#8]))).map (fun t => (t.statusWord, t.errOffset)) =
      some (0x24#32, 14#32) := by decide
/-- 95 DELTA-3: 10 − 32 wraps to 234. -/
theorem test_delta_wraps_below :
    (went (engineStep (afterLit 16 [0x40#8]))).map (fun t => (t.prev, t.pixMem, t.ptr)) =
      some (234#8, [(0, 10#8), (1, 234#8)], 15#32) := by decide
/-- 95 DELTA-4: 250 + 31 wraps to 25. -/
theorem test_delta_wraps_above :
    (went (engineStep { afterLit 16 [0x7F#8] with prev := 250#8 })).map (fun t => (t.prev, t.outCount)) =
      some (25#8, 2#32) := by decide
/-- 95 HDR-1. -/
theorem test_hdr_dimensions :
    (went (engineStep (started 16 (encode (.hdr 0x12345678#32 0x9ABCDEF0#32) ++ encode .ftr)))).map
        (fun t => (t.width, t.height, t.ptr, t.tokenEnd, t.phase)) =
      some (0x12345678#32, 0x9ABCDEF0#32, 12#32, 12#32, .tokens) := by decide
/-- 95 ERR-3: with both faults the length is reported. -/
theorem test_hdr_length_before_magic :
    (went (engineStep (started 16 (List.replicate 11 0x78#8)))).map (fun t => (t.statusWord, t.errOffset)) =
      some (0x34#32, 0#32) := by decide
/-- 95 ERR-4: "fmiF". -/
theorem test_hdr_magic_is_case_sensitive :
    (went (engineStep (started 16 ([0x66#8, 0x6D#8, 0x69#8, 0x46#8] ++ List.replicate 16 0#8)))).map
        (fun t => (t.statusWord, t.errOffset, t.ptr)) =
      some (0x14#32, 0#32, 0#32) := by decide
/-- 95 HDR-2: `end` 4 below `ptr` 12 finishes. -/
theorem test_ftr_finishes_a_bare_header :
    (went (engineStep { started 16 (encode (.hdr 1#32 2#32)) with
        phase := .tokens, ptr := 12#32, tokenEnd := 4#32 })).map (fun t => (t.statusWord, t.ptr, t.tokenEnd)) =
      some (2#32, 12#32, 4#32) := by decide
/-- 95 ERR-7, P5: a two-byte head before the footer. -/
theorem test_truncated_token :
    (went (engineStep (afterLit 16 [0xC0#8]))).map (fun t => (t.statusWord, t.errOffset, t.ptr)) =
      some (0x44#32, 14#32, 14#32) := by decide
/-- 95 CSR-3: CACHE[2] at 0x108 and PREV at 0x24; CSR-13: 0x028 is unmapped. -/
theorem test_csr_reads :
    (afterLit 16 []).csrAt 0x108 = 0x10A#32 ∧ (afterLit 16 []).csrAt 0x024 = 0x0A#32 ∧
      (afterLit 16 []).csrAt 0x028 = 0#32 ∧ (afterLit 16 []).csrAt 0x000 = 0#32 := by decide
/-- 95 CSR-8: START ignores bits 31 to 1; CSR-7: without bit 0 nothing happens. -/
theorem test_start_is_bit_zero :
    (State.reset.csrStore 0 3#32).phase = .header ∧ (State.reset.csrStore 0 0xFFFFFFFE#32).phase = .idle := by
  decide
/-- R54, R64: a pixel the host has seen is visible after a later pass that wrote none and was not seen to end. -/
theorem test_seen_pixel_survives_an_unseen_pass :
    ((afterLit 16 []).finish.csrLoad 0x004).startPass.finish.Shown 0 := by decide
/-- R64: seeing the end of a later pass that wrote no pixel does not show an earlier pass's. -/
theorem test_unseen_pixel_stays_unseen :
    ¬ ((afterLit 16 []).finish.startPass.finish.csrLoad 0x004).Shown 0 := by decide
/-- 95 CSR-17, R12: a host access outside a space is refused, and so is an InMem write while busy. -/
theorem test_host_access_refused :
    hostAct (.inMemRead 32) (loaded 16 []) = .refused (.inMemOutside 32) ∧
      hostAct (.inMemWrite 0 0#8) (afterLit 16 []) = .refused (.inMemWriteWhileBusy 0) := ⟨rfl, rfl⟩
/-- 95 SRC-2 and P1: the producer's tokens for `[10, 10, 50, 51, 50]`. -/
theorem test_producer_src2 :
    Producer.tokensOf [10#8, 10#8, 50#8, 51#8, 50#8] =
      [.lit 0#6 10#8, .cref 2, .lit 0#6 50#8, .delta 1, .cref 12] := by decide
/-- 95 ENC-7: a difference of −33 evicts. -/
theorem test_producer_enc7 :
    Producer.tokensOf [64#8, 100#8, 67#8] = [.lit 0#6 64#8, .lit 0#6 100#8, .lit 0#6 67#8] := by decide
/-- 95 ENC-14: the luma of (100, 200, 50). -/
theorem test_luma_truncates : Producer.luma 100#8 200#8 50#8 = 153#8 := by decide

/-- R45: both memories are in canonical form after reset. -/
theorem test_reset_memories_wf : State.reset.inMem.wf ∧ State.reset.pixMem.wf := by decide

/-! ### Legal states of every phase -/

theorem witness_inv_idle : (loaded 16 (streamOf [])).Inv := by constructor <;> decide
theorem witness_inv_header : (started 16 (streamOf [0x02#8])).Inv := by constructor <;> decide
theorem witness_inv_tokens : (afterLit 16 [0x02#8]).Inv := by constructor <;> decide
theorem witness_inv_done : { afterLit 16 [] with phase := .done }.Inv := by constructor <;> decide
theorem witness_inv_error : ((afterLit 16 [0x05#8]).raiseError .unresolvedCacheRef 14#32).Inv := by
  constructor <;> decide

/-! ### Witnesses: states and operands that meet every hypothesis of a statement, at the boundary values -/

theorem next_of_went {o : Host.Outcome State Fault Refusal} (h : (went o).isSome = true) :
    ∃ t, o = .next t := by
  cases o with
  | next t => exact ⟨t, rfl⟩
  | fault r => simp [went] at h
  | refused r => simp [went] at h

theorem witness_DecodeInvertsEncode :
    (Instr.run 16383).wf = true ∧ (Instr.run 0).wf = true ∧ (Instr.delta (-32)).wf = true ∧
      (Instr.delta 31).wf = true ∧ (Instr.hdr 0xFFFFFFFF#32 0#32).wf = true := by decide

theorem witness_EncodeInvertsDecode :
    Region.token ≠ .trailer ∧ decode .token [0xBF#8, 0xFF#8, 0x3F#8] = .ok (.run 16383, [0x3F#8]) ∧
      Region.preamble ≠ .trailer ∧
      decode .preamble (encode (.hdr 0xFFFFFFFF#32 0#32)) = .ok (.hdr 0xFFFFFFFF#32 0#32, []) := by decide

theorem witness_DisassembleInvertsAssemble :
    (∀ i ∈ [Instr.run 16383, .lit 63#6 255#8, .cref 63, .delta (-32), .delta 31],
      i.wf = true ∧ i.region = .token) ∧
    (AsmLine.instr (.delta 32) ∈ [AsmLine.bytes [0x80#8], .instr (.delta 32)] ∧
      (Instr.delta 32).wf = false) ∧
    assemble [.instr (.hdr 1#32 1#32), .bytes [0x80#8], .instr .ftr] =
      some (encode (.hdr 1#32 1#32) ++ [0x80#8] ++ encode .ftr) := by decide

theorem witness_FirstByteDecodesToOneToken :
    (0x3F#8).toNat < 0x40 ∧ (0x40 ≤ (0x40#8).toNat ∧ (0x7F#8).toNat < 0x80) ∧
      (0x80 ≤ (0x80#8).toNat ∧ (0xBF#8).toNat < 0xC0) ∧ 0xC0 ≤ (0xC0#8).toNat := by decide

theorem witness_BadBytesRejectedByName :
    ([0x66#8, 0x6D#8, 0x69#8, 0x46#8] : List Byte).length = 4 ∧
      [0x66#8, 0x6D#8, 0x69#8, 0x46#8] ≠ magicBytes ∧ (List.replicate 7 0#8).length < 8 ∧
      0x80 ≤ (0x80#8).toNat := by decide

theorem witness_StepRunsDecodedInstr_agenda :
    State.reset.host.agenda = [] ∧ (planned State.reset [.engine]).host.agenda = [.engine] := by decide

theorem witness_StepRunsDecodedInstr_token :
    (inTokens 16 [0x80#8, 0x09#8]).phase = .tokens ∧ (Instr.run 9).wf = true ∧
      (Instr.run 9).region = .token ∧ ([0x80#8, 0x09#8] : List Byte).length = (Instr.run 9).bytes ∧
      (inTokens 16 [0x80#8, 0x09#8]).ptr.toNat + (Instr.run 9).bytes ≤
        (inTokens 16 [0x80#8, 0x09#8]).tokenEnd.toNat ∧
      (inTokens 16 [0x80#8, 0x09#8]).tokenEnd.toNat ≤ (inTokens 16 [0x80#8, 0x09#8]).cfg.inMemSize ∧
      (inTokens 16 [0x80#8, 0x09#8]).inMem.Holds 12 [0x80#8, 0x09#8] ∧
      decode .token [0x80#8, 0x09#8] = .ok (.run 9, []) := by decide

theorem witness_StepRunsDecodedInstr_header :
    (started 16 (streamOf [])).phase = .header ∧ (Instr.hdr 0#32 0#32).wf = true ∧
      (encode (.hdr 0#32 0#32)).length = 12 ∧ 12 ≤ (started 16 (streamOf [])).streamLen.toNat ∧
      (started 16 (streamOf [])).streamLen.toNat ≤ (started 16 (streamOf [])).cfg.inMemSize ∧
      (started 16 (streamOf [])).inMem.Holds 0 (encode (.hdr 0#32 0#32)) ∧
      decode .preamble (encode (.hdr 0#32 0#32)) = .ok (.hdr 0#32 0#32, []) := by decide

theorem witness_StepRunsDecodedInstr_footer :
    (inTokens 16 []).phase = .tokens ∧ (inTokens 16 []).tokenEnd.toNat ≤ (inTokens 16 []).ptr.toNat := by decide

theorem witness_IdleEngineKeepsState :
    State.reset.phase = .idle ∧ (State.reset.finish).phase = .done ∧
      (State.reset.raiseError .badMagic 0#32).phase = .error := by decide

/-- One pixel stands in 16: fifteen more fit and sixteen do not; the second byte is the last of the region, or
the first past it. -/
theorem witness_RunRepeatsPrev :
    (tiny 16).SizesInRange ∧
    ((afterLit 16 [0x80#8, 0x0F#8]).ptr.toNat + 1 < (afterLit 16 [0x80#8, 0x0F#8]).tokenEnd.toNat ∧
      (afterLit 16 [0x80#8, 0x0F#8]).tokenEnd.toNat = (afterLit 16 [0x80#8, 0x0F#8]).ptr.toNat + 2 ∧
      (afterLit 16 [0x80#8, 0x0F#8]).outCount.toNat + 15 ≤ 16) ∧
    (afterLit 16 [0x80#8]).tokenEnd.toNat ≤ (afterLit 16 [0x80#8]).ptr.toNat + 1 ∧
    16 < (afterLit 16 [0x80#8, 0x10#8]).outCount.toNat + 16 := by decide

/-- Bytes at `ptr` for the last clause of the four token statements: `BF FF`, `C0 32`, `3F`, `7F`. -/
theorem witness_token_bytes :
    (∀ bs ∈ [[0xBF#8, 0xFF#8], [0xC0#8, 0x32#8], [0x3F#8], [0x7F#8]],
      (afterLit 16 bs).phase = .tokens ∧
      (afterLit 16 bs).ptr.toNat + bs.length = (afterLit 16 bs).tokenEnd.toNat ∧
      (afterLit 16 bs).tokenEnd.toNat ≤ (afterLit 16 bs).cfg.inMemSize ∧
      (afterLit 16 bs).inMem.Holds (afterLit 16 bs).ptr.toNat bs) ∧
    16383 = ((0xBF#8).toNat - 0x80) * 256 + (0xFF#8).toNat ∧ 0x3F#8 = BitVec.ofNat 8 (63 : Fin 64) ∧
    (31 : Int) = ((0x7F#8).toNat : Int) - 0x40 - 32 := by decide

theorem witness_LitFillsAndAppends :
    ((afterLit 2 [0xC0#8, 0x32#8]).ptr.toNat + 1 < (afterLit 2 [0xC0#8, 0x32#8]).tokenEnd.toNat ∧
      (afterLit 2 [0xC0#8, 0x32#8]).outCount.toNat + 1 ≤ (afterLit 2 [0xC0#8, 0x32#8]).cfg.pixMemSize) ∧
    (afterLit 2 [0xC0#8]).tokenEnd.toNat ≤ (afterLit 2 [0xC0#8]).ptr.toNat + 1 ∧
    ((afterLit 1 [0xC0#8, 0x32#8]).ptr.toNat + 1 < (afterLit 1 [0xC0#8, 0x32#8]).tokenEnd.toNat ∧
      (afterLit 1 [0xC0#8, 0x32#8]).cfg.pixMemSize < (afterLit 1 [0xC0#8, 0x32#8]).outCount.toNat + 1) := by
  decide

theorem witness_CrefAppendsSlot :
    (((afterLit 2 [0x02#8]).cache.get 2).valid = true ∧
      (afterLit 2 [0x02#8]).outCount.toNat + 1 ≤ (afterLit 2 [0x02#8]).cfg.pixMemSize) ∧
    ((afterLit 2 [0x3F#8]).cache.get 63).valid = false ∧
    (((afterLit 1 [0x02#8]).cache.get 2).valid = true ∧
      (afterLit 1 [0x02#8]).cfg.pixMemSize < (afterLit 1 [0x02#8]).outCount.toNat + 1) := by decide

theorem witness_DeltaAddsModulo256 :
    (afterLit 2 [0x40#8]).outCount.toNat + 1 ≤ (afterLit 2 [0x40#8]).cfg.pixMemSize ∧
    (afterLit 1 [0x40#8]).cfg.pixMemSize < (afterLit 1 [0x40#8]).outCount.toNat + 1 := by decide

/-- 12 and `IN_MEM_SIZE` bytes are accepted, 11 and one more than `IN_MEM_SIZE` are not. -/
theorem witness_HdrLoadsDimensions :
    (12 ≤ (started 16 (List.replicate 12 0#8)).streamLen.toNat ∧
      (started 16 (List.replicate 12 0#8)).streamLen.toNat ≤ (tiny 16).inMemSize) ∧
    (12 ≤ (started 16 (List.replicate 32 0#8)).streamLen.toNat ∧
      (started 16 (List.replicate 32 0#8)).streamLen.toNat ≤ (tiny 16).inMemSize) ∧
    (started 16 (List.replicate 11 0#8)).streamLen.toNat < 12 ∧
    (tiny 16).inMemSize < (started 16 (List.replicate 33 0#8)).streamLen.toNat := by decide

theorem witness_HeaderStepChecksThenLoads :
    (started 16 (List.replicate 11 0#8)).phase = .header ∧
    (started 16 (List.replicate 11 0#8)).streamLen.toNat < 12 ∧
    ((started 16 (List.replicate 12 0x78#8)).LengthOk ∧
      (started 16 (List.replicate 12 0x78#8)).inMem.Holds 0 (List.replicate 4 0x78#8) ∧
      List.replicate 4 0x78#8 ≠ magicBytes) ∧
    ((started 16 (encode (.hdr 0x12345678#32 1#32))).LengthOk ∧
      (started 16 (encode (.hdr 0x12345678#32 1#32))).inMem.Holds 0
        (magicBytes ++ [0x12#8, 0x34#8, 0x56#8, 0x78#8, 0#8, 0#8, 0#8, 1#8])) := by decide

theorem witness_HeaderFidelity :
    (started 16 (encode (.hdr 0xFFFFFFFF#32 0#32))).phase = .header ∧
    12 ≤ (started 16 (encode (.hdr 0xFFFFFFFF#32 0#32))).streamLen.toNat ∧
    (started 16 (encode (.hdr 0xFFFFFFFF#32 0#32))).streamLen.toNat ≤ (tiny 16).inMemSize ∧
    (started 16 (encode (.hdr 0xFFFFFFFF#32 0#32))).inMem.Holds 0 (encode (.hdr 0xFFFFFFFF#32 0#32)) := by
  decide

/-- 12 bytes and 20 bytes. -/
theorem witness_ShortStreamsFinishEmpty_inv :
    (started 16 (encode (.hdr 1#32 2#32))).Inv ∧ (started 16 (streamOf [])).Inv := by
  constructor <;> constructor <;> decide

theorem witness_ShortStreamsFinishEmpty :
    (started 16 (encode (.hdr 1#32 2#32))).phase = .header ∧
    (started 16 (encode (.hdr 1#32 2#32))).host.agenda = [] ∧
    (started 16 (encode (.hdr 1#32 2#32))).streamLen.toNat = 12 ∧
    (started 16 (encode (.hdr 1#32 2#32))).inMem.Holds 0 (encode (.hdr 1#32 2#32)) ∧
    (started 16 (streamOf [])).streamLen.toNat = 20 ∧
    (started 16 (streamOf [])).inMem.Holds 0 (encode (.hdr 0#32 0#32)) := by decide

theorem witness_StraddlingTokenIsTruncated :
    (afterLit 16 [0x80#8]).phase = .tokens ∧
    (afterLit 16 [0x80#8]).ptr.toNat + 1 = (afterLit 16 [0x80#8]).tokenEnd.toNat ∧
    (afterLit 16 [0x80#8]).ptr.toNat < (afterLit 16 [0x80#8]).cfg.inMemSize ∧
    (afterLit 16 [0x80#8]).inMem.read (afterLit 16 [0x80#8]).ptr.toNat = some 0x80#8 := by decide

/-- The host loaded nothing, or all but the last token byte. -/
theorem witness_OnlyUnwrittenInputIsRefused_inv :
    { started 16 (streamOf []) with inMem := [] }.Inv ∧
      { inTokens 16 [0x02#8] with inMem := Memory.writeAll [] 0 (encode (.hdr 0#32 0#32)) }.Inv := by
  constructor <;> constructor <;> decide

/-- The second clause's unwritten offset is `ptr`, and the third clause holds of any of the legal states above. -/
theorem witness_OnlyUnwrittenInputIsRefused :
    engineStep { started 16 (streamOf []) with inMem := [] } = .refused (.inMemUnwritten 0) ∧
      { inTokens 16 [0x02#8] with inMem := Memory.writeAll [] 0 (encode (.hdr 0#32 0#32)) }.inMem.read 12 =
        none ∧
      (inTokens 16 [0x02#8]).ptr.toNat = 12 ∧ (inTokens 16 [0x02#8]).tokenEnd.toNat = 13 :=
  ⟨rfl, by decide, by decide, by decide⟩

/-- A step that raises each of the five errors, from a legal state (also for ErrorCauses). -/
theorem witness_ErrorsArePrecise_inv :
    (started 16 (List.replicate 12 0x78#8)).Inv ∧ (afterLit 16 [0x3F#8]).Inv ∧
      (started 16 (List.replicate 11 0#8)).Inv ∧ (afterLit 16 [0x80#8]).Inv ∧
      (afterLit 1 [0x60#8]).Inv := by
  refine ⟨?_, ?_, ?_, ?_, ?_⟩ <;> constructor <;> decide

theorem witness_ErrorsArePrecise :
    ([started 16 (List.replicate 12 0x78#8), afterLit 16 [0x3F#8], started 16 (List.replicate 11 0#8),
        afterLit 16 [0x80#8], afterLit 1 [0x60#8]].map
      (fun s => (decide (s.phase ≠ .error), (went (engineStep s)).map (fun t => (t.phase, t.errCode.toNat))))) =
      (List.range 5).map (fun c => (true, some (.error, c + 1))) := by decide

theorem witness_StepKeepsInvariant :
    (afterLit 16 [0x02#8]).Inv ∧ ∃ t, step (afterLit 16 [0x02#8]) = .next t :=
  ⟨witness_inv_tokens, next_of_went (by decide)⟩

theorem witness_PowerOnResetClearsAll :
    (planned (afterLit 16 []) [.powerOn]).host.agenda = [.powerOn] := by decide

/-- START from IDLE, and a power-on reset from DONE. -/
theorem witness_OnlyStartLeavesRest :
    ¬ (planned (loaded 16 (streamOf [])) [startEvent]).Busy ∧
    ((went (step (planned (loaded 16 (streamOf [])) [startEvent]))).map (fun t => t.phase)) = some .header ∧
    ¬ (planned (afterLit 16 []).finish [.powerOn]).Busy ∧
    ((went (step (planned (afterLit 16 []).finish [.powerOn]))).map (fun t => t.phase)) = some .idle := by
  decide

/-- Reset, START after DONE, and a LIT each change the cache. -/
theorem witness_OnlyLitStartResetChangeCache :
    ([planned (afterLit 16 []).finish [.powerOn], planned (afterLit 16 []).finish [startEvent],
        afterLit 16 [0xC0#8, 0xFF#8]].map
      (fun s => (went (step s)).map (fun t => decide (t.cache ≠ s.cache)))) =
      List.replicate 3 (some true) := by decide

/-- A one-byte token that ends at the bound, and the finish there. -/
theorem witness_PtrMovesByTokenLength :
    ((afterLit 16 [0x02#8]).phase = .tokens ∧ ∃ t, engineStep (afterLit 16 [0x02#8]) = .next t) ∧
    ((afterLit 16 []).phase = .tokens ∧ ∃ t, engineStep (afterLit 16 []) = .next t) :=
  ⟨⟨rfl, next_of_went (by decide)⟩, ⟨rfl, next_of_went (by decide)⟩⟩

theorem witness_EngineNeverWritesInput : ∃ t, engineStep (afterLit 16 [0xC0#8, 0x32#8]) = .next t :=
  next_of_went (by decide)

theorem witness_EngineOnlyAppendsPixels :
    (afterLit 16 [0x80#8, 0x0F#8]).Inv ∧ ∃ t, engineStep (afterLit 16 [0x80#8, 0x0F#8]) = .next t :=
  ⟨by constructor <;> decide, next_of_went (by decide)⟩

theorem witness_StatusBits :
    (loaded 16 (streamOf [])).phase = .idle ∧ (afterLit 16 [0x02#8]).Busy ∧
      (afterLit 16 []).finish.phase = .done ∧
      ((afterLit 16 [0x05#8]).raiseError .unresolvedCacheRef 14#32).phase = .error := by decide

/-- The last mapped offset, the unmapped offsets at both ends, CACHE[0] and CACHE[63]; and STATUS in a pass that is
over. -/
theorem witness_CsrReadReturnsRegister :
    (∀ o ∈ [0x000, 0x024, 0x028, 0x0FC, 0x100, 0x1FC], o % 4 = 0 ∧ o < 0x200 ∧
      (planned (afterLit 16 []) [.host (.csrRead 4 o)]).host.agenda = [.host (.csrRead 4 o)]) ∧
    (afterLit 16 []).finish.Over := by decide

theorem witness_ReadOnlyCsrWritesIgnored :
    ∀ o ∈ [0x004, 0x00C, 0x028, 0x1FC], o % 4 = 0 ∧ o < 0x200 ∧ o ≠ 0x000 ∧ o ≠ 0x008 := by decide

theorem witness_StreamLenWrite :
    ¬ (loaded 16 []).Busy ∧ (afterLit 16 []).Busy ∧
      (planned (loaded 16 []) [.host (.csrWrite 4 0x008 27#32)]).host.agenda =
        [.host (.csrWrite 4 0x008 27#32)] := by decide

theorem witness_StartClearsThePass :
    (planned (afterLit 16 []).finish [startEvent]).host.agenda = [.host (.csrWrite 4 0x000 1#32)] ∧
      (1#32)[0] = true ∧ ¬ (planned (afterLit 16 []).finish [startEvent]).Busy := by decide

theorem witness_StartWhileBusyIgnored :
    (afterLit 16 []).Busy ∧ (0xFFFFFFFE#32)[0] = false ∧
      (planned (afterLit 16 []) [startEvent]).host.agenda = [.host (.csrWrite 4 0x000 1#32)] := by decide

theorem witness_BadCsrAccessRefused :
    (2 ≠ 4 ∧ (planned State.reset [.host (.csrRead 2 0)]).host.agenda = [.host (.csrRead 2 0)]) ∧
      (0x002 % 4 ≠ 0 ∧
        (planned State.reset [.host (.csrWrite 4 0x002 0#32)]).host.agenda =
          [.host (.csrWrite 4 0x002 0#32)]) := by decide

theorem witness_InMemWriteOnlyWhileNotBusy :
    (afterLit 16 []).Busy ∧ ¬ (loaded 16 []).Busy ∧ 31 < (loaded 16 []).cfg.inMemSize ∧
      (planned (loaded 16 []) [.host (.inMemWrite 31 7#8)]).host.agenda = [.host (.inMemWrite 31 7#8)] := by
  decide

/-- A finished pass before and after the host has seen it, and one still busy. -/
theorem witness_PixMemReadAfterPass :
    0 < (afterLit 16 []).cfg.pixMemSize ∧ ¬ (afterLit 16 []).finish.Busy ∧
      ((afterLit 16 []).finish.csrLoad 0x004).Shown 0 ∧
      ((afterLit 16 []).finish.csrLoad 0x004).pixMem.read 0 = some 10#8 ∧
      (afterLit 16 []).Busy ∧ ¬ (afterLit 16 []).finish.Shown 0 ∧
      (planned (afterLit 16 []).finish [.host (.pixMemRead 0)]).host.agenda = [.host (.pixMemRead 0)] := by
  decide

/-- A pass of one pixel that is over and unseen, before the STATUS read that shows offset 0. -/
theorem witness_OnlyStatusReadShowsPixels :
    (planned (afterLit 16 []).finish [.host (.csrRead 4 0x004)]).Over ∧
      ¬ (planned (afterLit 16 []).finish [.host (.csrRead 4 0x004)]).Shown 0 ∧
      ((went (step (planned (afterLit 16 []).finish [.host (.csrRead 4 0x004)]))).map
        (fun t => decide (t.Shown 0))) = some true := by decide

theorem witness_OnlyStatusReadShowsPixels_inv :
    (planned (afterLit 16 []).finish [.host (.csrRead 4 0x004)]).Inv := by constructor <;> decide

/-- A pass of one pixel that the host has seen to end, before the START of the next. -/
theorem witness_ShownPixelsStayVisible :
    (planned ((afterLit 16 []).finish.csrLoad 0x004) [startEvent]).Inv ∧
      (∃ t, step (planned ((afterLit 16 []).finish.csrLoad 0x004) [startEvent]) = .next t) ∧
      (planned ((afterLit 16 []).finish.csrLoad 0x004) [startEvent]).Shown 0 ∧
      (planned ((afterLit 16 []).finish.csrLoad 0x004) [startEvent]).pixMem.read 0 = some 10#8 :=
  ⟨by constructor <;> decide, next_of_went (by decide), by decide, by decide⟩

theorem witness_InMemReadsBack :
    31 < (loaded 16 (streamOf [])).cfg.inMemSize ∧ (loaded 16 (streamOf [])).inMem.read 31 = none ∧
      (loaded 16 (streamOf [])).inMem.read 19 = some 1#8 ∧
      (planned (loaded 16 (streamOf [])) [.host (.inMemRead 31), .host (.inMemRead 31)]).host.agenda =
        [.host (.inMemRead 31), .host (.inMemRead 31)] := by decide

theorem witness_HostAccessOutsideRefused :
    (loaded 16 []).cfg.inMemSize ≤ 32 ∧ ¬ (loaded 16 []).Busy ∧ (afterLit 16 []).Busy ∧
      (loaded 16 []).cfg.pixMemSize ≤ 16 ∧ 0x200 ≤ 0x200 ∧ 0x200 % 4 = 0 ∧
      (planned (loaded 16 []) [.host (.inMemRead 32)]).host.agenda = [.host (.inMemRead 32)] := by decide

theorem witness_CsrMapIsOneToOne :
    Csr.ofOffset 0x024 = some .prev ∧ Csr.ofOffset 0x100 = some (.cache 0) ∧
      Csr.ofOffset 0x1FC = some (.cache 63) := by decide

theorem witness_BusWindowsNeverAlias : WindowsApart Config.standard ∧ WindowsApart (tiny 16) := by decide

/-- The footer's first byte, 15, differs and the pass still takes its two steps. -/
theorem witness_FooterIsNeverRead :
    (started 16 (streamOf [0xC0#8, 0x32#8, 0x61#8])).phase = .header ∧
    (started 16 (streamOf [0xC0#8, 0x32#8, 0x61#8])).host.agenda = [] ∧
    (∀ a, a < 15 →
      ((started 16 (streamOf [0xC0#8, 0x32#8, 0x61#8])).inMem.write 15 0xAA#8).read a =
        (started 16 (streamOf [0xC0#8, 0x32#8, 0x61#8])).inMem.read a) ∧
    (started 16 (streamOf [0xC0#8, 0x32#8, 0x61#8])).streamLen.toNat = 15 + 8 ∧
    ∃ t, runs 4 (started 16 (streamOf [0xC0#8, 0x32#8, 0x61#8])) = .next t :=
  ⟨rfl, rfl, by decide, by decide, next_of_went (by decide)⟩

theorem witness_PassTerminates :
    (planned (loaded 16 (streamOf [0xC0#8, 0x32#8])) [startEvent]).Inv ∧
    ¬ (planned (loaded 16 (streamOf [0xC0#8, 0x32#8])) [startEvent]).Busy ∧
    (planned (loaded 16 (streamOf [0xC0#8, 0x32#8])) [startEvent]).host.agenda = [startEvent] ∧
    (∀ a, a < (planned (loaded 16 (streamOf [0xC0#8, 0x32#8])) [startEvent]).streamLen.toNat →
      ((planned (loaded 16 (streamOf [0xC0#8, 0x32#8])) [startEvent]).inMem.read a).isSome = true) :=
  ⟨by constructor <;> decide, by decide, rfl, by decide⟩

/-- The same stream started after nothing and after a pass that ended in an error. -/
theorem witness_PassIndependentOfEarlierPasses :
    (tiny 16).SizesInRange ∧
    ¬ (planned (loaded 16 (streamOf [0x05#8])) [startEvent]).Busy ∧
    ¬ (planned ((inTokens 16 [0x05#8]).raiseError .unresolvedCacheRef 12#32) [startEvent]).Busy ∧
    (planned (loaded 16 (streamOf [0x05#8])) [startEvent]).cfg =
      (planned ((inTokens 16 [0x05#8]).raiseError .unresolvedCacheRef 12#32) [startEvent]).cfg ∧
    (planned (loaded 16 (streamOf [0x05#8])) [startEvent]).host.agenda = [startEvent] ∧
    (planned ((inTokens 16 [0x05#8]).raiseError .unresolvedCacheRef 12#32) [startEvent]).host.agenda =
      [startEvent] ∧
    (loaded 16 (streamOf [0x05#8])).streamLen = (inTokens 16 [0x05#8]).streamLen ∧
    (∀ a, a < (loaded 16 (streamOf [0x05#8])).streamLen.toNat →
      (loaded 16 (streamOf [0x05#8])).inMem.read a = (inTokens 16 [0x05#8]).inMem.read a) ∧
    ∃ t, runs (1 + 2) (planned (loaded 16 (streamOf [0x05#8])) [startEvent]) = .next t :=
  ⟨by decide, by decide, by decide, rfl, rfl, rfl, by decide, by decide, next_of_went (by decide)⟩

/-- Differences of −32 and +31, across the wrap. -/
theorem witness_DeltaInverse :
    ((234#8 - 10#8 : Byte).toInt = -32) ∧ ((25#8 - 250#8 : Byte).toInt = 31) := by decide

/-- P3 in short: every producer step occurs. -/
theorem witness_ProducerStreamsWellFormed :
    (Producer.traceOf [0#8, 0#8, 10#8, 11#8, 10#8]).map Prod.fst =
      [.run 2, .lit 0#6 10#8, .delta 1, .cref 2] := by decide

theorem witness_ProducerDeltaBoundary :
    Producer.single ⟨100#8, Cache.empty.fill 69#8⟩ 68#8 = .delta (-32) ∧
      Producer.single ⟨100#8, Cache.empty.fill 130#8⟩ 131#8 = .delta 31 ∧
      Producer.single ⟨100#8, Cache.empty.fill 133#8⟩ 132#8 = .lit 0#6 132#8 := by decide

theorem witness_ProducerRunBoundary : Producer.tokensOf (List.replicate 2 0#8) = [.run 2] := by decide

/-- The host launches the producer's stream for two pixels after reset of a small machine; the last token of its
trace is index 1 (also for CacheTrajectoriesAgree). -/
theorem witness_RoundTrip :
    (planned (State.powerOn (tiny 2)) (launch (Producer.stream 2#32 1#32 [10#8, 10#8]))).Inv ∧
    ¬ (State.powerOn (tiny 2)).Busy ∧
    (planned (State.powerOn (tiny 2)) (launch (Producer.stream 2#32 1#32 [10#8, 10#8]))).host.agenda =
      launch (Producer.stream 2#32 1#32 [10#8, 10#8]) ∧
    (Producer.stream 2#32 1#32 [10#8, 10#8]).length ≤ (tiny 2).inMemSize ∧
    ([10#8, 10#8] : List Byte).length ≤ (tiny 2).pixMemSize ∧
    1 < (Producer.traceOf [10#8, 10#8]).length :=
  ⟨by constructor <;> decide, by decide, rfl, by decide, by decide, by decide⟩

end Sys2Proof.Machine.Tests
end

section
/-!
PROOFS. The statements of 00_scope.md: what a host access outside its space does (R12, R50, R53, R62).
-/
namespace Sys2Proof.Machine

/-! ### Accesses beyond a space's last offset -/

/-- A 32-bit aligned access passes R62's two checks, so beyond the window only the window's bound refuses it. -/
theorem csrAccess_of_outside {o : Nat} (go : State → State) (s : State) (h4 : o % 4 = 0) (ho : 0x200 ≤ o) :
    csrAccess 4 o go s = .refused (.csrOutside o) := by
  have hw : ¬ o < Config.csrWindow := Nat.not_lt.mpr ho
  simp [csrAccess, h4, hw]

theorem hostInMemRead_of_outside {s : State} {o : Nat} (ho : s.cfg.inMemSize ≤ o) :
    hostInMemRead o s = .refused (.inMemOutside o) :=
  if_neg (Nat.not_lt.mpr ho)

/-- R65's check comes first: while the engine is busy the write is refused by that name, wherever it goes. -/
theorem hostInMemWrite_of_outside {s : State} {o : Nat} (b : Byte) (ho : s.cfg.inMemSize ≤ o) :
    hostInMemWrite o b s = .refused (if s.Busy then .inMemWriteWhileBusy o else .inMemOutside o) := by
  by_cases hb : s.Busy
  · simp only [hostInMemWrite, if_pos hb]
  · simp only [hostInMemWrite, if_neg hb, if_neg (Nat.not_lt.mpr ho)]

theorem hostPixMemRead_of_outside {s : State} {o : Nat} (ho : s.cfg.pixMemSize ≤ o) :
    hostPixMemRead o s = .refused (.pixMemOutside o) :=
  if_neg (Nat.not_lt.mpr ho)

/-- Settles O43: the step is the agenda's host access, and each access is refused beyond its space's last offset;
taking the event off the agenda changes neither the sizes nor whether the engine is busy. -/
theorem hostAccessOutsideRefused : Obligations.HostAccessOutsideRefused := by
  intro s o rest
  refine ⟨fun ho h => ?inMemRead, fun b ho h => ?inMemWrite, fun ho h => ?pixMemRead,
    fun ho h4 h => ?csrRead, fun w ho h4 h => ?csrWrite⟩
  case inMemRead => exact (step_cons h).trans (hostInMemRead_of_outside ho)
  case inMemWrite => exact (step_cons h).trans (hostInMemWrite_of_outside b ho)
  case pixMemRead => exact (step_cons h).trans (hostPixMemRead_of_outside ho)
  case csrRead => exact (step_cons h).trans (csrAccess_of_outside (fun t => t.csrLoad o) _ h4 ho)
  case csrWrite => exact (step_cons h).trans (csrAccess_of_outside (fun t => t.csrStore o w) _ h4 ho)

end Sys2Proof.Machine
end

section
/-!
PROOFS. The statements of 10_state.md: the CSR map, STATUS and power-on reset, what an engine step and a host action
leave in the state, and the invariant that every step keeps (R20 to R45).
-/
namespace Sys2Proof.Machine

/-! ### What an engine step leaves, by its effect -/

/-- The effect of a token of `n` bytes that appends `k` pixels of brightness `v`, which becomes `prev` (R139, R140). -/
def State.afterToken (s : State) (k : Nat) (v : Byte) (n : Nat) : State :=
  ((State.appendPixels k v s).setPrev v).advance (BitVec.ofNat 32 n)

theorem State.afterOne_eq_afterToken (s : State) (v : Byte) : s.afterOne v = s.afterToken 1 v 1 := rfl

theorem State.afterLit_eq_afterToken (s : State) (v : Byte) : s.afterLit v = (s.fill v).afterToken 1 v 2 := rfl

theorem State.setPrev_of_eq {s : State} {v : Byte} (h : v = s.prev) : s.setPrev v = s := by
  subst h; rfl

/-- A RUN repeats `prev`, so it leaves `prev` as its own brightness (R162). -/
theorem State.afterRun_eq_afterToken (s : State) (k : Nat) :
    (State.appendPixels k s.prev s).advance 2#32 = s.afterToken k s.prev 2 := by
  rw [afterToken, setPrev_of_eq (appendPixels_prev k s.prev s).symm]

/-- The effects of an engine step, coarser than `engineStep_cases`: the four tokens are one effect, with or without
a fill, and so are their errors. -/
inductive EngineEffect (s : State) : State → Prop where
  | none (notBusy : ¬ s.Busy) : EngineEffect s s
  | headerError (header : s.phase = .header) (e : ErrorKind) : EngineEffect s (s.raiseError e 0#32)
  | headerLoad (header : s.phase = .header) (length : s.LengthOk) (w h : Word) : EngineEffect s (s.loadHeader w h)
  | finish (tokens : s.phase = .tokens) (bound : s.tokenEnd.toNat ≤ s.ptr.toNat) : EngineEffect s s.finish
  | tokenError (tokens : s.phase = .tokens) (e : ErrorKind) : EngineEffect s (s.raiseError e s.ptr)
  | token (tokens : s.phase = .tokens) (b0 : Byte) (first : s.inMem.read s.ptr.toNat = some b0) (n : Nat)
      (length : (tagOf b0).bytes = n) (inside : s.ptr.toNat + n ≤ s.tokenEnd.toNat) (k : Nat) (v : Byte)
      (room : s.Room k) (noPixel : k = 0 → v = s.prev) (u : State) (filled : u = s ∨ u = s.fill v) :
      EngineEffect s (u.afterToken k v n)

/-- Every next state of the engine is one of these effects. -/
theorem engineStep_effect {s t : State} (h : engineStep s = .next t) : EngineEffect s t := by
  rcases engineStep_cases h with ⟨hb, rfl⟩ | ⟨hp, _, rfl⟩ | ⟨hp, _, _, rfl⟩ |
    ⟨hp, hl, w0, w1, w2, w3, h0, h1, h2, h3, _, rfl⟩ | ⟨hp, hb, rfl⟩ | ⟨hp, hlt, b0, hb0, htok⟩
  · exact .none hb
  · exact .headerError hp _
  · exact .headerError hp _
  · exact .headerLoad hp hl _ _
  · exact .finish hp hb
  · have one (h80 : b0.toNat < 0x80) : (tagOf b0).bytes = 1 := by rw [tagOf_bytes, if_neg (by omega)]
    have two (h80 : 0x80 ≤ b0.toNat) : (tagOf b0).bytes = 2 := by rw [tagOf_bytes, if_pos h80]
    rcases htok with ⟨h40, ⟨_, rfl⟩ | ⟨_, _, rfl⟩ | ⟨_, hr, rfl⟩⟩ | ⟨_, h80, ⟨_, rfl⟩ | ⟨hr, rfl⟩⟩ | ⟨_, _, rfl⟩ |
      ⟨hs, b1, _, ⟨h80, _, ⟨_, rfl⟩ | ⟨hr, rfl⟩⟩ | ⟨hc0, ⟨_, rfl⟩ | ⟨hr, rfl⟩⟩⟩
    case inl.inr.inr => -- CREF
      rw [State.afterOne_eq_afterToken]
      exact .token hp b0 hb0 1 (one (by omega)) hlt 1 _ hr nofun s (.inl rfl)
    case inr.inl.inr => -- DELTA
      rw [State.afterOne_eq_afterToken]
      exact .token hp b0 hb0 1 (one h80) hlt 1 _ hr nofun s (.inl rfl)
    case inr.inr.inr.inl.inr => -- RUN
      rw [State.afterRun_eq_afterToken]
      exact .token hp b0 hb0 2 (two h80) hs _ _ hr (fun _ => rfl) s (.inl rfl)
    case inr.inr.inr.inr.inr => -- LIT
      rw [State.afterLit_eq_afterToken]
      exact .token hp b0 hb0 2 (two (by omega)) hs 1 _ hr nofun _ (.inr rfl)
    all_goals exact .tokenError hp _

/-! ### The fields a token leaves -/

namespace State

@[simp] theorem afterToken_cfg (s : State) (k : Nat) (v : Byte) (n : Nat) : (s.afterToken k v n).cfg = s.cfg :=
  appendPixels_cfg k v s
@[simp] theorem afterToken_phase (s : State) (k : Nat) (v : Byte) (n : Nat) :
    (s.afterToken k v n).phase = s.phase := appendPixels_phase k v s
@[simp] theorem afterToken_tokenEnd (s : State) (k : Nat) (v : Byte) (n : Nat) :
    (s.afterToken k v n).tokenEnd = s.tokenEnd := appendPixels_tokenEnd k v s
@[simp] theorem afterToken_streamLen (s : State) (k : Nat) (v : Byte) (n : Nat) :
    (s.afterToken k v n).streamLen = s.streamLen := appendPixels_streamLen k v s
@[simp] theorem afterToken_inMem (s : State) (k : Nat) (v : Byte) (n : Nat) :
    (s.afterToken k v n).inMem = s.inMem := appendPixels_inMem k v s
@[simp] theorem afterToken_host (s : State) (k : Nat) (v : Byte) (n : Nat) : (s.afterToken k v n).host = s.host :=
  appendPixels_host k v s
@[simp] theorem afterToken_ptr (s : State) (k : Nat) (v : Byte) (n : Nat) :
    (s.afterToken k v n).ptr = s.ptr + BitVec.ofNat 32 n := by simp [afterToken]

/-- Inside the token region the pointer does not wrap. -/
theorem ptr_add_toNat {s : State} {n : Nat} (h : s.ptr.toNat + n ≤ s.tokenEnd.toNat) :
    (s.ptr + BitVec.ofNat 32 n).toNat = s.ptr.toNat + n :=
  toNat_add_ofNat (by have := s.tokenEnd.isLt; omega)

end State

/-! ### The invariant, one operation at a time -/

namespace State.Inv

/-- Nothing the invariant says is about the host's side. -/
theorem withHost {s : State} (h : s.Inv) (hs : HostSide) : { s with host := hs }.Inv :=
  { h with }

/-- Only a running pass ties `stream_len` to another register (R113). -/
theorem withStreamLen {s : State} (h : s.Inv) (hb : ¬ s.Busy) (n : Word) : { s with streamLen := n }.Inv :=
  { h with bound := fun hp => absurd (.inr hp) hb }

theorem writeInMem {s : State} (h : s.Inv) {o : Nat} (ho : o < s.cfg.inMemSize) (b : Byte) :
    { s with inMem := s.inMem.write o b }.Inv :=
  { h with inMem := ⟨Memory.wf_write h.inMem.1 o b, Memory.bound_write h.inMem.2 ho b⟩ }

end State.Inv

theorem Slot.legal_empty (i : Fin 64) : Slot.empty.Legal i := ⟨nofun, fun _ => rfl⟩

/-- A fill puts a value into the slot of its own group (R27). -/
theorem Cache.legal_fill {c : Cache} (h : ∀ i, (c.get i).Legal i) (v : Byte) (i : Fin 64) :
    ((c.fill v).get i).Legal i := by
  rw [Cache.get_fill]
  split
  · next hi => exact ⟨fun _ => hi.symm, nofun⟩
  · exact h i

/-- The five codes are numbered from 1 (R240). -/
theorem ErrorKind.code_range (e : ErrorKind) : 1 ≤ e.code.toNat ∧ e.code.toNat ≤ 5 := by
  cases e <;> decide

/-- Before the header step a state whose registers are clear is legal, whatever its memories hold (R45, R193). -/
theorem State.inv_of_clear {s : State} (sizes : s.cfg.SizesInRange) (inMem : s.inMem.Legal s.cfg.inMemSize)
    (pixMem : s.pixMem.Legal s.cfg.pixMemSize) (hp : s.phase = .idle ∨ s.phase = .header)
    (fresh : s.ptr = 0#32 ∧ s.tokenEnd = 0#32 ∧ s.outCount = 0#32 ∧ s.width = 0#32 ∧ s.height = 0#32 ∧
      s.cache = Cache.empty)
    (prev : s.prev = 0#8) (noError : s.errCode = 0#3 ∧ s.errOffset = 0#32) : s.Inv := by
  have ⟨_, _, hcount, _, _, hcache⟩ := fresh
  exact {
    sizes, inMem, pixMem
    slots := fun i => by rw [lookup, hcache, Cache.get_empty]; exact Slot.legal_empty i
    count := by simp [hcount]
    written := by simp [hcount]
    last := by simp [hcount, prev]
    fresh := fun _ => fresh
    region := by rcases hp with hp | hp <;> simp [hp]
    bound := by rcases hp with hp | hp <;> simp [hp]
    finished := by rcases hp with hp | hp <;> simp [hp]
    noError := fun _ => noError
    someError := by rcases hp with hp | hp <;> simp [hp] }

/-- The machine is legal after power-on, for every choice of the parameters in their ranges. -/
theorem State.inv_powerOn {c : Config} (hc : c.SizesInRange) : (State.powerOn c).Inv :=
  inv_of_clear hc ⟨Memory.wf_nil, nofun⟩ ⟨Memory.wf_nil, nofun⟩ (.inl rfl)
    ⟨rfl, rfl, rfl, rfl, rfl, rfl⟩ rfl ⟨rfl, rfl⟩

namespace State.Inv

variable {s : State}

theorem powerOnReset (h : s.Inv) : s.powerOnReset.Inv := (inv_powerOn h.sizes).withHost s.host.powerOn

theorem startPass (h : s.Inv) : s.startPass.Inv :=
  inv_of_clear h.sizes h.inMem h.pixMem (.inr rfl) ⟨rfl, rfl, rfl, rfl, rfl, rfl⟩ rfl ⟨rfl, rfl⟩

/-- An error records where `ptr` stands and leaves the rest (R243, R244). -/
theorem raiseError (h : s.Inv) (e : ErrorKind) {off : Word} (ho : off = s.ptr) : (s.raiseError e off).Inv :=
  { h with
    fresh := nofun
    region := nofun
    bound := nofun
    finished := nofun
    noError := fun hp => absurd rfl hp
    someError := fun _ => ⟨e.code_range.1, e.code_range.2, ho⟩ }

theorem finish (h : s.Inv) (hp : s.phase = .tokens) (hb : s.tokenEnd.toNat ≤ s.ptr.toNat) : s.finish.Inv :=
  { h with
    fresh := nofun
    region := fun _ => h.region (.inl hp)
    bound := nofun
    finished := fun _ => hb
    noError := fun _ => h.noError (by rw [hp]; nofun)
    someError := nofun }

/-- The header step puts `ptr` at the first token and `end` at the footer (R113). -/
theorem loadHeader (h : s.Inv) (hp : s.phase = .header) (hl : s.LengthOk) (w ht : Word) :
    (s.loadHeader w ht).Inv :=
  { h with
    fresh := nofun
    region := fun _ => ⟨Nat.le_refl 12, .inr rfl⟩
    bound := fun _ => by
      refine ⟨hl, ?_⟩
      rw [loadHeader_tokenEnd, footerBound_toNat hl.1, loadHeader_streamLen]
      exact Nat.sub_add_cancel (Nat.le_trans (by decide : 8 ≤ headerLen) hl.1)
    finished := nofun
    noError := fun _ => h.noError (by rw [hp]; nofun)
    someError := nofun }

theorem fill (h : s.Inv) (hp : s.phase = .tokens) (v : Byte) : (s.fill v).Inv :=
  { h with
    slots := Cache.legal_fill h.slots v
    fresh := fun hp' => by simp [hp] at hp' }

theorem advance (h : s.Inv) (hp : s.phase = .tokens) {n : Nat} (hn : s.ptr.toNat + n ≤ s.tokenEnd.toNat) :
    (s.advance (BitVec.ofNat 32 n)).Inv :=
  { h with
    fresh := fun hp' => by simp [hp] at hp'
    region := fun _ => by
      have := (h.region (.inl hp)).1
      rw [advance_ptr, advance_tokenEnd, ptr_add_toNat hn]
      omega
    finished := fun hp' => by simp [hp] at hp'
    someError := fun hp' => by simp [hp] at hp' }

/-- Where `k` pixels fit, appending them writes them all and leaves the last of them in `prev` (R139 to R141). With
no pixel to append nothing changes, which is why `v` must then be `prev`. -/
theorem appendPixels (h : s.Inv) (hp : s.phase = .tokens) {k : Nat} {v : Byte} (hr : s.Room k)
    (hv : k = 0 → v = s.prev) : ((State.appendPixels k v s).setPrev v).Inv := by
  cases k with
  | zero => rw [State.appendPixels, setPrev_of_eq (hv rfl)]; exact h
  | succ k =>
    have hlim : s.outCount.toNat + (k + 1) ≤ 2 ^ 32 - 1 := Nat.le_trans hr h.sizes.2.2
    have hcount : (s.outCount + BitVec.ofNat 32 (k + 1)).toNat = s.outCount.toNat + (k + 1) :=
      toNat_add_ofNat hlim
    have hne : s.outCount + BitVec.ofNat 32 (k + 1) ≠ 0#32 := fun h0 => by
      rw [h0] at hcount; simp at hcount
    exact {
      sizes := by simpa using h.sizes
      inMem := by simpa using h.inMem
      pixMem := by
        rw [setPrev_pixMem, setPrev_cfg, appendPixels_cfg]
        exact legal_appendPixels h.sizes.2.2 hr h.pixMem.1 h.pixMem.2
      slots := by simpa [lookup] using h.slots
      count := by simpa [hcount] using hr
      written := fun a ha => by
        simp only [setPrev_outCount, appendPixels_outCount, hcount] at ha
        rw [setPrev_pixMem, read_appendPixels hlim]
        split
        · rfl
        · exact h.written a (by omega)
      last := by
        simp only [setPrev_outCount, appendPixels_outCount, if_neg hne, setPrev_pixMem, setPrev_prev, hcount]
        rw [read_appendPixels hlim, if_pos (by omega)]
      fresh := by simp [hp]
      region := by simpa using h.region
      bound := by simpa [LengthOk] using h.bound
      finished := by simp [hp]
      noError := by simpa using h.noError
      someError := by simp [hp] }

theorem afterToken (h : s.Inv) (hp : s.phase = .tokens) {k : Nat} {v : Byte} {n : Nat} (hr : s.Room k)
    (hv : k = 0 → v = s.prev) (hn : s.ptr.toNat + n ≤ s.tokenEnd.toNat) : (s.afterToken k v n).Inv :=
  (h.appendPixels hp hr hv).advance (by simpa using hp) (by simpa using hn)

theorem engineStep {t : State} (h : s.Inv) (ht : engineStep s = .next t) : t.Inv := by
  cases engineStep_effect ht with
  | none => exact h
  | headerError hp e => exact h.raiseError e (h.fresh (.inr hp)).1.symm
  | headerLoad hp hl w d => exact h.loadHeader hp hl w d
  | finish hp hb => exact h.finish hp hb
  | tokenError hp e => exact h.raiseError e rfl
  | token hp b0 _ n _ hn k v hr hv u hu =>
    rcases hu with rfl | rfl
    · exact h.afterToken hp hr hv hn
    · exact (h.fill hp v).afterToken hp hr hv hn

theorem hostAct {op : HostOp} {t : State} (h : s.Inv) (ht : hostAct op s = .next t) : t.Inv := by
  rcases hostAct_cases ht with ⟨_, _, _, _, rfl⟩ | ⟨w, _, hb, rfl⟩ | ⟨_, _, _, rfl⟩ | ⟨_, b, _, _, ho, rfl⟩ |
    ⟨hs, rfl, _⟩
  · exact h.startPass
  · exact h.withStreamLen hb w
  · exact h
  · exact h.writeInMem ho b
  · exact h.withHost hs

end State.Inv

/-! ### The statements -/

/-- Settles O24: an engine step has one of six effects, a host action one of five, and each keeps the invariant. -/
theorem stepKeepsInvariant : Obligations.StepKeepsInvariant := by
  intro s t h ht
  have taken (rest : List Event) : (s.withAgenda rest).Inv := h.withHost _
  rcases step_cases s with ⟨_, e⟩ | ⟨rest, _, e⟩ | ⟨rest, _, e⟩ | ⟨op, rest, _, e⟩ <;> rw [e] at ht
  · exact h.engineStep ht
  · exact (taken rest).engineStep ht
  · cases ht; exact (taken rest).powerOnReset
  · exact (taken rest).hostAct ht

/-- Settles O26: the engine rests where it is not busy, and of the host's actions only START writes `phase`. -/
theorem onlyStartLeavesRest : Obligations.OnlyStartLeavesRest := by
  intro s t ht hb hne
  rcases step_cases s with ⟨_, e⟩ | ⟨rest, _, e⟩ | ⟨rest, ha, e⟩ | ⟨op, rest, ha, e⟩ <;> rw [e] at ht
  · rw [engineStep_of_not_busy hb] at ht
    cases ht; exact absurd rfl hne
  · rw [engineStep_of_not_busy (s := s.withAgenda rest) hb] at ht
    cases ht; exact absurd rfl hne
  · cases ht; exact .inl ⟨rest, ha, rfl⟩
  · rcases hostAct_cases ht with ⟨w, rfl, h0, _, rfl⟩ | ⟨_, _, _, rfl⟩ | ⟨_, _, _, rfl⟩ | ⟨_, _, _, _, _, rfl⟩ |
      ⟨_, rfl, _⟩
    · exact .inr ⟨w, rest, ha, h0, rfl⟩
    all_goals exact absurd rfl hne

/-- Settles O28: a completed token lies inside the region, so `ptr` moves by its length without wrapping. -/
theorem ptrMovesByTokenLength : Obligations.PtrMovesByTokenLength := by
  intro s t _ hp ht
  cases engineStep_effect ht with
  | none hb => exact absurd (.inr hp) hb
  | headerError hh | headerLoad hh => simp [hp] at hh
  | finish | tokenError => exact .inr ⟨nofun, rfl⟩
  | token _ b0 hb0 n hlen hn k v _ _ u hu =>
    have hu' : u.phase = s.phase ∧ u.ptr = s.ptr ∧ u.tokenEnd = s.tokenEnd := by rcases hu with rfl | rfl <;> simp
    obtain ⟨hphase, hptr, hend⟩ := hu'
    have hmove : (u.afterToken k v n).ptr.toNat = s.ptr.toNat + n := by
      rw [State.afterToken_ptr, hptr, State.ptr_add_toNat hn]
    refine .inl ⟨by simp [hphase, hp], ?_, b0, hb0, ?_⟩
    · rw [hmove, State.afterToken_tokenEnd, hend]; exact hn
    · rw [hmove, ← hlen, tagOf_bytes]

/-- Settles O29: none of the effects of an engine step writes these four fields. -/
theorem engineNeverWritesInput : Obligations.EngineNeverWritesInput := by
  intro s t ht
  cases engineStep_effect ht with
  | none | headerError | headerLoad | finish | tokenError => exact ⟨rfl, rfl, rfl, rfl⟩
  | token _ _ _ _ _ _ _ _ _ _ u hu => rcases hu with rfl | rfl <;> simp

/-- Settles O23: the sizes that `State.reset` takes are in R8's ranges. -/
theorem resetIsLegal : Obligations.ResetIsLegal :=
  State.inv_powerOn (c := Config.standard) (by decide)

theorem State.csrAt_reset (o : Nat) : State.reset.csrAt o = 0#32 := by
  unfold csrAt
  cases Csr.ofOffset o with
  | none => rfl
  | some r =>
    cases r with
    | cache i =>
      show (Cache.empty.get i).word = 0#32
      rw [Cache.get_empty]; rfl
    | _ => rfl

/-- Settles O25: the step is the agenda's power-on event, and the empty cache reads empty in every slot. -/
theorem powerOnResetClearsAll : Obligations.PowerOnResetClearsAll :=
  ⟨fun _ _ h => ⟨Cache.empty, Cache.get_empty, step_cons h⟩, rfl, rfl, rfl, State.csrAt_reset⟩

/-- The bits of STATUS, for every value of the four fields it is put together from. -/
theorem State.statusWord_fields (s : State) :
    s.statusWord[0] = s.busyBit ∧ s.statusWord[1] = s.doneBit ∧ s.statusWord[2] = s.errBit ∧
      s.statusWord[3] = false ∧ s.statusWord.extractLsb' 4 3 = s.errCode ∧
      s.statusWord.extractLsb' 7 25 = 0#25 := by
  unfold statusWord
  generalize s.errCode = code, s.errBit = err, s.doneBit = done, s.busyBit = busy
  decide +revert

theorem State.statusWord_of_error {s : State} (h : s.phase = .error) :
    s.statusWord = 4#32 ||| s.errCode.setWidth 32 <<< 4 := by
  simp only [statusWord, errBit, doneBit, busyBit, Busy, h]
  generalize s.errCode = code
  decide +revert

/-- Outside phase ERROR a legal state records no error code, so only the phase shows in STATUS (R42). -/
theorem State.Inv.statusWord_of_phase {s : State} (h : s.Inv) {p : Phase} (hp : s.phase = p) (hne : p ≠ .error) :
    s.statusWord =
      0#30 ++ BitVec.ofBool (decide (p = .done)) ++ BitVec.ofBool (decide (p = .header ∨ p = .tokens)) := by
  subst hp
  simp only [statusWord, errBit, doneBit, busyBit, Busy, decide_eq_false hne, (h.noError hne).1]
  generalize decide (s.phase = .done) = done, decide (s.phase = .header ∨ s.phase = .tokens) = busy
  decide +revert

/-- Settles O31: the fields are those of the word in every state, and its value is the phase's bit, with the error
code in phase ERROR alone. -/
theorem statusBits : Obligations.StatusBits := by
  refine ⟨State.statusWord_fields, fun s h => ⟨fun hp => ?idle, fun hb => ?busy, fun hp => ?done,
    State.statusWord_of_error⟩⟩
  case idle => exact h.statusWord_of_phase hp nofun
  case busy => rcases hb with hp | hp <;> exact h.statusWord_of_phase hp nofun
  case done => exact h.statusWord_of_phase hp nofun

/-- The slots fill the window from 0x100 up, clear of the other registers (R33). -/
theorem Csr.ofOffset_cache (i : Fin 64) : Csr.ofOffset (Csr.cache i).offset = some (.cache i) := by
  have above (n : Nat) (hn : n < 0x100) : 0x100 + 4 * i.val ≠ n := by omega
  have inside : 0x100 + 4 * i.val < 0x200 := by omega
  simp [ofOffset, offset, above, inside]

/-- Settles O44: the cache's 64 offsets follow from arithmetic, the ten others are looked up one by one. -/
theorem csrMapIsOneToOne : Obligations.CsrMapIsOneToOne := by
  refine ⟨fun r => ?_, fun _ _ => Csr.offset_of_ofOffset⟩
  cases r with
  | cache i => exact ⟨Csr.ofOffset_cache i, by simp only [Csr.offset]; omega, by simp only [Csr.offset]; omega⟩
  | _ => decide

end Sys2Proof.Machine
end

section
/-!
PROOFS. The statements of 20_memory.md: which reads of InMem stop the engine, what the engine leaves in PixMem, what
the host sees of both memories, and where the three spaces stand on a bus (R50 to R66).
-/
namespace Sys2Proof.Machine

/-! ### What stops the engine (R51, R52) -/

/-- The meaning of every instruction answers a next state: only a fetch can stop the engine. -/
theorem exec_next (i : Instr) (s : State) : ∃ t, exec i s = .next t := by
  cases i with
  | run len => rcases execRun_cases len s with ⟨_, _, e⟩ | ⟨_, e⟩ | ⟨_, _, e⟩ <;> exact ⟨_, e⟩
  | lit pad v => rcases execLit_cases pad v s with ⟨_, _, e⟩ | ⟨_, e⟩ | ⟨_, _, e⟩ <;> exact ⟨_, e⟩
  | cref i => rcases execCref_cases i s with ⟨_, _, e⟩ | ⟨_, e⟩ | ⟨_, _, e⟩ <;> exact ⟨_, e⟩
  | delta d => rcases execDelta_cases d s with ⟨_, e⟩ | ⟨_, e⟩ <;> exact ⟨_, e⟩
  | hdr w h => rcases execHdr_cases w h s with ⟨_, e⟩ | ⟨_, e⟩ <;> exact ⟨_, e⟩
  | ftr => exact ⟨_, rfl⟩

/-- The InMem offsets that the next engine step may read: the header's, or those from `ptr` up to `end` (R52). -/
def State.MayRead (s : State) (a : Nat) : Prop :=
  (s.phase = .header ∧ s.LengthOk ∧ a < 12) ∨ (s.phase = .tokens ∧ s.ptr.toNat ≤ a ∧ a < s.tokenEnd.toNat)

/-- The two ways in which a fetch stops are the two ways in which the step does. -/
theorem perform_of_halt {f : Fetched} {s : State} {a : Nat}
    (h : (s.inMem.read a = none ∧ f = .halt (.refused (.inMemUnwritten a))) ∨
      (s.cfg.inMemSize ≤ a ∧ f = .halt (.fault (.engineOutsideInMem a)))) :
    (s.inMem.read a = none ∧ perform f s = .refused (.inMemUnwritten a)) ∨
      (s.cfg.inMemSize ≤ a ∧ perform f s = .fault (.engineOutsideInMem a)) :=
  h.imp (And.imp_right fun e => by rw [e]; rfl) (And.imp_right fun e => by rw [e]; rfl)

/-- An engine step answers a next state, or stops at an offset it may read: one that is unwritten, or beyond InMem. -/
theorem engineStep_stops (s : State) :
    (∃ t, engineStep s = .next t) ∨
    ∃ a, s.MayRead a ∧
      ((s.inMem.read a = none ∧ engineStep s = .refused (.inMemUnwritten a)) ∨
        (s.cfg.inMemSize ≤ a ∧ engineStep s = .fault (.engineOutsideInMem a))) := by
  by_cases hbusy : s.Busy
  · rcases hbusy with hp | hp
    · rw [engineStep_header hp]
      rcases s.fetchHeader_cases with ⟨_, e⟩ | ⟨_, _, _, _, _, e⟩ | ⟨_, _, _, _, _, _, _, _, _, _, e⟩ |
        ⟨hl, a, ha, hstop⟩
      · rw [e]; exact .inl ⟨_, rfl⟩
      · rw [e]; exact .inl ⟨_, rfl⟩
      · rw [e, perform]; exact .inl (exec_next _ s)
      · exact .inr ⟨a, .inl ⟨hp, hl, ha⟩, perform_of_halt hstop⟩
    · by_cases hb : s.tokenEnd.toNat ≤ s.ptr.toNat
      · exact .inl ⟨_, engineStep_bound hp hb⟩
      · rw [engineStep_token hp (Nat.lt_of_not_le hb)]
        rcases s.fetchToken_cases with ⟨_, _, _, e⟩ | ⟨_, _, _, _, _, _, e⟩ | ⟨_, _, _, _, e⟩ | ⟨a, ha, hstop⟩
        · rw [e, perform]; exact .inl (exec_next _ s)
        · rw [e, perform]; exact .inl (exec_next _ s)
        · rw [e]; exact .inl ⟨_, rfl⟩
        · have hread : s.ptr.toNat ≤ a ∧ a < s.tokenEnd.toNat := by
            rcases ha with rfl | ⟨rfl, hs⟩
            · exact ⟨Nat.le_refl _, Nat.lt_of_not_le hb⟩
            · exact ⟨Nat.le_succ _, hs⟩
          exact .inr ⟨a, .inr ⟨hp, hread⟩, perform_of_halt hstop⟩
  · exact .inl ⟨s, engineStep_of_not_busy hbusy⟩

/-- In a legal state the engine reads inside InMem only: a stream fits it, and `end` is below the stream's length
(R111, R113). -/
theorem State.Inv.lt_inMemSize_of_mayRead {s : State} (h : s.Inv) {a : Nat} (ha : s.MayRead a) :
    a < s.cfg.inMemSize := by
  rcases ha with ⟨_, hl, ha⟩ | ⟨hp, _, ha⟩
  · exact Nat.lt_of_lt_of_le ha (Nat.le_trans hl.1 hl.2)
  · have ⟨⟨_, hfits⟩, hend⟩ := h.bound hp
    omega

theorem State.Inv.engineStep_ne_fault {s : State} (h : s.Inv) (r : Fault) : Machine.engineStep s ≠ .fault r := by
  rcases engineStep_stops s with ⟨t, e⟩ | ⟨a, ha, ⟨_, e⟩ | ⟨hout, _⟩⟩
  · rw [e]; nofun
  · rw [e]; nofun
  · exact absurd (h.lt_inMemSize_of_mayRead ha) (Nat.not_lt.mpr hout)

/-- A token step reads its first byte before anything else (R160). -/
theorem fetchToken_of_unwritten {s : State} (hin : s.ptr.toNat < s.cfg.inMemSize)
    (hn : s.inMem.read s.ptr.toNat = none) :
    s.fetchToken = .halt (.refused (.inMemUnwritten s.ptr.toNat)) := by
  rcases s.inByte_cases s.ptr.toNat with ⟨b, _, hb, _⟩ | ⟨_, _, e⟩ | ⟨hout, _⟩
  · rw [hn] at hb; cases hb
  · simp only [State.fetchToken, e]
  · exact absurd hin (Nat.not_lt.mpr hout)

/-- Settles O20: what stops the engine is an offset it may read, and in a legal state those lie in InMem, so the one
fault is ruled out. -/
theorem onlyUnwrittenInputIsRefused : Obligations.OnlyUnwrittenInputIsRefused := by
  refine ⟨fun s r h hr => ?refusals, fun s h hp hlt hn => ?refused, fun s r h => ?noFault⟩
  case refusals =>
    rcases engineStep_stops s with ⟨t, e⟩ | ⟨a, ha, ⟨hn, e⟩ | ⟨_, e⟩⟩ <;> rw [e] at hr <;> cases hr
    refine ⟨a, rfl, hn, ha.imp (fun ⟨hp, _, h12⟩ => ⟨hp, h12⟩) fun ⟨hp, hptr, hend⟩ => ⟨hp, ?_, hend⟩⟩
    exact Nat.le_trans (h.region (.inl hp)).1 hptr
  case refused =>
    have hin := h.lt_inMemSize_of_mayRead (.inr ⟨hp, Nat.le_refl _, hlt⟩)
    rw [engineStep_token hp hlt, fetchToken_of_unwritten hin hn]; rfl
  case noFault =>
    rcases step_cases s with ⟨_, e⟩ | ⟨rest, _, e⟩ | ⟨rest, _, e⟩ | ⟨op, rest, _, e⟩ <;> rw [e]
    · exact h.engineStep_ne_fault r
    · exact (h.withHost _ : (s.withAgenda rest).Inv).engineStep_ne_fault r
    · nofun
    · exact hostAct_ne_fault op _ r

/-! ### What an engine step leaves in PixMem (R53, R54, R140) -/

theorem State.afterToken_outCount {s : State} {k : Nat} (hk : s.outCount.toNat + k ≤ 2 ^ 32 - 1) (v : Byte)
    (n : Nat) : (s.afterToken k v n).outCount.toNat = s.outCount.toNat + k := by
  rw [afterToken, advance_outCount, setPrev_outCount, appendPixels_outCount, toNat_add_ofNat hk]

theorem State.read_afterToken {s : State} {k : Nat} (hk : s.outCount.toNat + k ≤ 2 ^ 32 - 1) (v : Byte) (n a : Nat) :
    (s.afterToken k v n).pixMem.read a =
      if s.outCount.toNat ≤ a ∧ a < s.outCount.toNat + k then some v else s.pixMem.read a :=
  read_appendPixels hk a

/-- Settles O30: only a token writes PixMem, and its pixels fill the offsets from the old `out_count` up to the new. -/
theorem engineOnlyAppendsPixels : Obligations.EngineOnlyAppendsPixels := by
  intro s t h ht
  cases engineStep_effect ht with
  | none | headerError | headerLoad | finish | tokenError => exact ⟨Nat.le_refl _, fun _ _ => rfl⟩
  | token _ _ _ n _ _ k v hr _ u hu =>
    have hu' : u.outCount = s.outCount ∧ u.pixMem = s.pixMem := by rcases hu with rfl | rfl <;> simp
    obtain ⟨hcount, hpix⟩ := hu'
    have hk : u.outCount.toNat + k ≤ 2 ^ 32 - 1 := by rw [hcount]; exact Nat.le_trans hr h.sizes.2.2
    rw [State.afterToken_outCount hk, hcount]
    refine ⟨Nat.le_add_right _ _, fun a ha => ?_⟩
    rw [State.read_afterToken hk, hcount, hpix, if_neg (by omega)]

/-- Outside phase TOKENS the engine appends no pixel. -/
theorem engineStep_outCount {s t : State} (ht : engineStep s = .next t) :
    s.phase = .tokens ∨ t.outCount = s.outCount := by
  cases engineStep_effect ht with
  | none | headerError | headerLoad => exact .inr rfl
  | finish hp | tokenError hp | token hp => exact .inl hp

/-! ### What the host may rely on of PixMem (R64) -/

/-- STATUS shows DONE or ERR exactly where the pass is over (R35). -/
theorem State.doneBit_or_errBit (s : State) : (s.doneBit ∨ s.errBit) ↔ s.Over := by
  simp [doneBit, errBit, Over]

/-- A STATUS read after the end of a pass (R64). -/
theorem State.csrLoad_status {s : State} (h : s.Over) :
    s.csrLoad 0x004 =
      { s with host := (s.observe (.word s.statusWord)).host.sawEnd s.outCount.toNat } :=
  if_pos ⟨rfl, s.doneBit_or_errBit.mpr h⟩

/-- A host action leaves PixMem, and what is shown of it but for a STATUS read that shows the end of a pass. -/
theorem hostAct_shown {op : HostOp} {s t : State} (ht : hostAct op s = .next t) (a : Nat) :
    t.pixMem = s.pixMem ∧
      ((t.Shown a ↔ s.Shown a) ∨
        (op = .csrRead 4 0x004 ∧ s.Over ∧ (t.Shown a ↔ a < s.outCount.toNat ∨ s.Shown a))) := by
  rcases hostAct_cases ht with ⟨_, _, _, _, rfl⟩ | ⟨_, _, _, rfl⟩ | ⟨_, _, _, rfl⟩ | ⟨_, _, _, _, _, rfl⟩ |
    ⟨hs, rfl, _, ⟨hsync, hunseen⟩ | ⟨hop, hover, hsync, hunseen⟩⟩
  · exact ⟨rfl, .inl (s.shown_startPass a)⟩
  · exact ⟨rfl, .inl Iff.rfl⟩
  · exact ⟨rfl, .inl Iff.rfl⟩
  · exact ⟨rfl, .inl Iff.rfl⟩
  · exact ⟨rfl, .inl (by simp only [State.Shown, hsync, hunseen])⟩
  · refine ⟨rfl, .inr ⟨hop, s.doneBit_or_errBit.mp hover, ?_⟩⟩
    rw [← s.shown_sawEnd a]
    simp only [State.Shown, hsync, hunseen, HostSide.sawEnd_synced]

/-- An engine step shows no pixel: it writes nothing of the host's side, and `out_count` never falls. -/
theorem shown_of_engineStep {s t : State} (h : s.Inv) (ht : engineStep s = .next t) {a : Nat} (ha : t.Shown a) :
    s.Shown a := by
  obtain ⟨_, _, _, hhost⟩ := engineNeverWritesInput s t ht
  have ⟨hcount, _⟩ := engineOnlyAppendsPixels s t h ht
  rw [State.Shown, hhost] at ha
  exact ⟨ha.1.imp_right (Nat.le_trans hcount), ha.2⟩

/-- Settles O40: neither an engine step nor START shows a pixel, and a STATUS read shows those of the pass that is
over. -/
theorem onlyStatusReadShowsPixels : Obligations.OnlyStatusReadShowsPixels := by
  refine ⟨fun s rest hover ha => ?reading, fun s t a h ht hns hs => ?onlyReading⟩
  case reading =>
    have e := step_csrRead ha (by decide) (by decide)
    rw [State.csrLoad_status (s := s.withAgenda rest) hover] at e
    exact ⟨_, e, rfl, rfl, State.shown_sawEnd ((s.withAgenda rest).observe _)⟩
  case onlyReading =>
    rcases step_cases s with ⟨_, e⟩ | ⟨rest, _, e⟩ | ⟨rest, ha, e⟩ | ⟨op, rest, ha, e⟩ <;> rw [e] at ht
    · exact absurd (shown_of_engineStep h ht hs) hns
    · exact absurd (shown_of_engineStep (s := s.withAgenda rest) (h.withHost _) ht hs) hns
    · cases ht; exact .inr ⟨⟨rest, ha⟩, rfl⟩
    · rcases (hostAct_shown ht a).2 with hsame | ⟨rfl, hover, hshown⟩
      · exact absurd (hsame.mp hs) hns
      · exact .inl ⟨hover, (hshown.mp hs).resolve_right hns, rest, ha⟩

/-- An engine step keeps a shown pixel, unless it writes a pixel at that offset (R54). -/
theorem engineStep_keeps_shown {s t : State} (h : s.Inv) (ht : engineStep s = .next t) {a : Nat} (ha : s.Shown a) :
    (t.Shown a ∧ t.pixMem.read a = s.pixMem.read a) ∨
    (s.phase = .tokens ∧ s.outCount.toNat ≤ a ∧ a < t.outCount.toNat) := by
  obtain ⟨_, _, _, hhost⟩ := engineNeverWritesInput s t ht
  have ⟨_, hread⟩ := engineOnlyAppendsPixels s t h ht
  by_cases hnew : s.outCount.toNat ≤ a ∧ a < t.outCount.toNat
  · refine .inr ⟨(engineStep_outCount ht).resolve_right fun hsame => ?_, hnew⟩
    rw [hsame] at hnew; omega
  · refine .inl ⟨?_, hread a (by omega)⟩
    rw [State.Shown, hhost]
    exact ⟨ha.1.imp_right (by omega), ha.2⟩

/-- Settles O41: the host's actions leave PixMem and hide nothing, so only a pixel written there or power-on can. -/
theorem shownPixelsStayVisible : Obligations.ShownPixelsStayVisible := by
  intro s t a b h ht hs hb
  rcases step_cases s with ⟨_, e⟩ | ⟨rest, _, e⟩ | ⟨rest, ha, _⟩ | ⟨op, rest, _, e⟩
  · rw [e] at ht
    exact (engineStep_keeps_shown h ht hs).imp (fun ⟨hs', hr⟩ => ⟨hs', hr.trans hb⟩) .inr
  · rw [e] at ht
    exact (engineStep_keeps_shown (s := s.withAgenda rest) (h.withHost _) ht hs).imp
      (fun ⟨hs', hr⟩ => ⟨hs', hr.trans hb⟩) .inr
  · exact .inr (.inl ⟨rest, ha⟩)
  · rw [e] at ht
    obtain ⟨hpix, hsame | ⟨_, _, hshown⟩⟩ := hostAct_shown ht a
    · exact .inl ⟨hsame.mpr hs, by rw [hpix]; exact hb⟩
    · exact .inl ⟨hshown.mpr (.inr hs), by rw [hpix]; exact hb⟩

/-! ### The host's accesses (R50, R53, R62 to R65) -/

/-- R62's two checks come before any effect of the access. -/
theorem csrAccess_of_bad (width o : Nat) (go : State → State) (s : State) :
    (width ≠ 4 → csrAccess width o go s = .refused (.csrWidth width)) ∧
    (width = 4 → o % 4 ≠ 0 → csrAccess width o go s = .refused (.csrMisaligned o)) :=
  ⟨fun hw => if_pos hw, fun hw ho => (if_neg (not_not_intro hw)).trans (if_pos ho)⟩

/-- Settles O37: a read and a write are each one CSR access. -/
theorem badCsrAccessRefused : Obligations.BadCsrAccessRefused := by
  rintro s width o v rest (h | h) <;> rw [step_cons h]
  · exact csrAccess_of_bad width o (fun t => t.csrLoad o) _
  · exact csrAccess_of_bad width o (fun t => t.csrStore o v) _

theorem hostInMemWrite_of_busy {s : State} (o : Nat) (b : Byte) (h : s.Busy) :
    hostInMemWrite o b s = .refused (.inMemWriteWhileBusy o) :=
  if_pos h

theorem hostInMemWrite_of_inside {s : State} {o : Nat} (b : Byte) (h : ¬ s.Busy) (ho : o < s.cfg.inMemSize) :
    hostInMemWrite o b s = .next { s with inMem := s.inMem.write o b } :=
  (if_neg h).trans (if_pos ho)

/-- Settles O38: the write is one `Memory.write`, after R65's check. -/
theorem inMemWriteOnlyWhileNotBusy : Obligations.InMemWriteOnlyWhileNotBusy := by
  intro s o b rest h
  refine ⟨fun hb => (step_cons h).trans (hostInMemWrite_of_busy o b hb), fun hb ho => ⟨s.inMem.write o b, ?_, ?_⟩⟩
  · exact (step_cons h).trans (hostInMemWrite_of_inside (s := s.withAgenda rest) b hb ho)
  · exact fun a => Memory.read_write s.inMem o a b

theorem hostPixMemRead_of_shown {s : State} {o : Nat} {b : Byte} (ho : o < s.cfg.pixMemSize) (hb : ¬ s.Busy)
    (hs : s.Shown o) (hr : s.pixMem.read o = some b) : hostPixMemRead o s = .next (s.observe (.byte b)) := by
  simp only [hostPixMemRead, if_pos ho, hr, if_pos (And.intro hb hs)]

/-- Where the host may rely on nothing, it draws a free value (R54, R64). -/
theorem hostPixMemRead_of_free {s : State} {o : Nat} (ho : o < s.cfg.pixMemSize)
    (h : s.Busy ∨ ¬ s.Shown o ∨ s.pixMem.read o = none) : hostPixMemRead o s = .next s.observeFree := by
  cases hr : s.pixMem.read o with
  | none => simp only [hostPixMemRead, if_pos ho, hr]
  | some b =>
    have hfree : ¬ (¬ s.Busy ∧ s.Shown o) := by
      rintro ⟨hb, hs⟩
      rcases h with h | h | h
      · exact hb h
      · exact h hs
      · rw [hr] at h; cases h
    simp only [hostPixMemRead, if_pos ho, hr, if_neg hfree]

/-- Settles O39: the read answers the byte or a draw, as its two cases say. -/
theorem pixMemReadAfterPass : Obligations.PixMemReadAfterPass := by
  intro s o rest ho h
  refine ⟨fun b hb hs hr => ?_, fun hfree => ?_⟩
  · exact (step_cons h).trans (hostPixMemRead_of_shown (s := s.withAgenda rest) ho hb hs hr)
  · exact (step_cons h).trans (hostPixMemRead_of_free (s := s.withAgenda rest) ho hfree)

/-- A host read inside InMem observes what the offset holds (R50, R63). -/
theorem step_inMemRead {s : State} {o : Nat} {rest : List Event} (ho : o < s.cfg.inMemSize)
    (h : s.host.agenda = .host (.inMemRead o) :: rest) :
    step s = .next ((s.withAgenda rest).observe (.byte (s.inMemByte o))) :=
  (step_cons h).trans (if_pos ho)

/-- Settles O42: the second of two reads runs in a state with the same InMem and the same count of power-on resets. -/
theorem inMemReadsBack : Obligations.InMemReadsBack := by
  refine ⟨fun s o rest ho h => ⟨s.inMemByte o, step_inMemRead ho h, rfl⟩, fun s o rest ho h => ⟨s.inMemByte o, ?_⟩⟩
  have second := step_inMemRead (rest := rest)
    (s := (s.withAgenda (.host (.inMemRead o) :: rest)).observe (.byte (s.inMemByte o))) ho rfl
  rw [runs_succ_of_next (step_inMemRead ho h), runs_succ_of_next second]
  rfl

/-! ### The bus (R56) -/

/-- Where the platform places a space. -/
def Space.base (c : Config) : Space → Nat
  | .csr => c.csrBase
  | .inMem => c.inMemBase
  | .pixMem => c.pixMemBase

/-- The bytes of a space. -/
def Space.size (c : Config) : Space → Nat
  | .csr => Config.csrWindow
  | .inMem => c.inMemSize
  | .pixMem => c.pixMemSize

/-- An address is decoded to a space only inside that space's window, wherever the windows lie. -/
theorem mem_window_of_busTarget {c : Config} {a o : Nat} {sp : Space} (h : busTarget c a = some (sp, o)) :
    a = sp.base c + o ∧ o < sp.size c := by
  unfold busTarget at h
  split at h
  · cases h; simp only [Space.base, Space.size]; omega
  · split at h
    · cases h; simp only [Space.base, Space.size]; omega
    · split at h
      · cases h; simp only [Space.base, Space.size]; omega
      · cases h

/-- Where the windows lie apart, no earlier window of the decode takes an address of a later one. -/
theorem busTarget_of_mem_window {c : Config} (h : WindowsApart c) {sp : Space} {o : Nat} (ho : o < sp.size c) :
    busTarget c (sp.base c + o) = some (sp, o) := by
  obtain ⟨hci, hcp, hip⟩ := h
  cases sp <;> simp only [Space.base, Space.size] at ho ⊢
  case csr => rw [busTarget, if_pos (by omega), Nat.add_sub_cancel_left]
  case inMem => rw [busTarget, if_neg (by omega), if_pos (by omega), Nat.add_sub_cancel_left]
  case pixMem =>
    rw [busTarget, if_neg (by omega), if_neg (by omega), if_pos (by omega), Nat.add_sub_cancel_left]

theorem busTarget_eq_some_iff {c : Config} (h : WindowsApart c) (a : Nat) (sp : Space) (o : Nat) :
    busTarget c a = some (sp, o) ↔ a = sp.base c + o ∧ o < sp.size c :=
  ⟨mem_window_of_busTarget, fun ⟨ha, ho⟩ => ha ▸ busTarget_of_mem_window h ho⟩

/-- Settles O45: the decode of each space, spelt out. -/
theorem busWindowsNeverAlias : Obligations.BusWindowsNeverAlias :=
  fun _ a h => ⟨busTarget_eq_some_iff h a .csr, busTarget_eq_some_iff h a .inMem, busTarget_eq_some_iff h a .pixMem⟩

end Sys2Proof.Machine
end

section
/-!
PROOFS. The statements of 30_encoding.md: the decoder and the encoder are inverse on every token and on the header, and
so are the disassembler and the assembler on a token region (R81 to R93).
-/
namespace Sys2Proof

/-! ### The four token formats (R84 to R87) -/

/-- The format table of R84 to R87: an instruction and its bytes, by the fields that stand in them. The decoder and the
encoder are each compared with this table. -/
inductive TokenFormat : Instr → List Byte → Prop where
  | cref (x : BitVec 6) : TokenFormat (.cref x.toFin) [0b00#2 ++ x]
  | delta (x : BitVec 6) : TokenFormat (.delta ((x.toNat : Int) - 32)) [0b01#2 ++ x]
  | run (x : BitVec 6) (b1 : Byte) : TokenFormat (.run (x.toNat * 256 + b1.toNat)) [0b10#2 ++ x, b1]
  | lit (x : BitVec 6) (b1 : Byte) : TokenFormat (.lit x b1) [0b11#2 ++ x, b1]

/-- A first byte is one of the four tags and a field: no first byte is illegal (R90). -/
theorem exists_tag_append (b0 : Byte) :
    ∃ x : BitVec 6, b0 = 0b00#2 ++ x ∨ b0 = 0b01#2 ++ x ∨ b0 = 0b10#2 ++ x ∨ b0 = 0b11#2 ++ x := by
  refine ⟨lowSix b0, ?_⟩
  have h := byte_eq_tag_append b0
  cases ht : tagOf b0 <;> rw [ht] at h
  case cref => exact .inl h
  case delta => exact .inr (.inl h)
  case run => exact .inr (.inr (.inl h))
  case lit => exact .inr (.inr (.inr h))

@[simp] theorem crefIndex_append (t : BitVec 2) (x : BitVec 6) : crefIndex (t ++ x) = x.toFin := by
  rw [crefIndex, lowSix_append]

@[simp] theorem deltaDiff_append (t : BitVec 2) (x : BitVec 6) :
    deltaDiff (t ++ x) = (x.toNat : Int) - 32 := by
  rw [deltaDiff, lowSix_append]

@[simp] theorem runLength_append (t : BitVec 2) (x : BitVec 6) (b1 : Byte) :
    runLength (t ++ x) b1 = x.toNat * 256 + b1.toNat := by
  rw [runLength_eq, ← lowSix_toNat, lowSix_append]

/-- A two-byte token whose second byte is missing. -/
theorem decodeToken_cut (x : BitVec 6) :
    decodeToken [0b10#2 ++ x] = .error .truncatedToken ∧ decodeToken [0b11#2 ++ x] = .error .truncatedToken := by
  simp [decodeToken]

namespace TokenFormat

variable {i : Instr} {tb : List Byte}

theorem wf_region (h : TokenFormat i tb) : i.wf = true ∧ i.region = .token := by
  cases h with
  | cref x => exact ⟨rfl, rfl⟩
  | delta x => have := x.isLt; exact ⟨decide_eq_true (by omega), rfl⟩
  | run x b1 =>
    have := x.isLt
    have := b1.isLt
    exact ⟨decide_eq_true (by unfold maxRunLen; omega), rfl⟩
  | lit x b1 => exact ⟨rfl, rfl⟩

theorem encode_eq (h : TokenFormat i tb) : encode i = tb := by
  cases h with
  | cref x => simp [encode, BitVec.ofNat_toNat]
  | delta x => simp [encode]
  | run x b1 =>
    have hx : (x.toNat * 256 + b1.toNat) / 256 = x.toNat := by have := b1.isLt; omega
    have hb : BitVec.ofNat 8 (x.toNat * 256 + b1.toNat) = b1 := BitVec.eq_of_toNat_eq (by
      have := b1.isLt
      rw [BitVec.toNat_ofNat]
      omega)
    simp [encode, hx, hb]
  | lit x b1 => rfl

theorem decodeToken_append (h : TokenFormat i tb) (rest : List Byte) :
    decodeToken (tb ++ rest) = .ok (i, rest) := by
  cases h <;> simp [decodeToken]

/-- The disassembler splits off one whole token and goes on with what follows. -/
theorem disassemble_append (h : TokenFormat i tb) (rest : List Byte) :
    disassemble (tb ++ rest) = (i :: (disassemble rest).1, (disassemble rest).2) := by
  cases h with
  | cref x => cases rest <;> simp [disassemble, decodeToken]
  | delta x => cases rest <;> simp [disassemble, decodeToken]
  | run x b1 => simp [disassemble]
  | lit x b1 => simp [disassemble]

end TokenFormat

/-- The encoding of a well-formed token has the format of the table. -/
theorem tokenFormat_encode {i : Instr} (hw : i.wf = true) (hr : i.region = .token) : TokenFormat i (encode i) := by
  cases i with
  | hdr w h => cases hr
  | ftr => cases hr
  | cref i =>
    have h := TokenFormat.cref (BitVec.ofFin i)
    rwa [← h.encode_eq] at h
  | lit pad v => exact .lit pad v
  | delta d =>
    obtain ⟨hlo, hhi⟩ := of_decide_eq_true hw
    have hd : ((BitVec.ofInt 6 (d + deltaBias)).toNat : Int) - 32 = d := by
      rw [BitVec.toNat_ofInt]
      unfold deltaBias
      omega
    have h := TokenFormat.delta (BitVec.ofInt 6 (d + deltaBias))
    rwa [hd] at h
  | run len =>
    have hl : len ≤ 16383 := of_decide_eq_true hw
    have hlen : (BitVec.ofNat 6 (len / 256)).toNat * 256 + (BitVec.ofNat 8 len).toNat = len := by
      rw [BitVec.toNat_ofNat, BitVec.toNat_ofNat]
      omega
    have h := TokenFormat.run (BitVec.ofNat 6 (len / 256)) (BitVec.ofNat 8 len)
    rwa [hlen] at h

/-- Any bytes start with a whole token, or are at most the first byte of one. -/
theorem token_or_cut (bs : List Byte) :
    (∃ i tb rest, TokenFormat i tb ∧ bs = tb ++ rest) ∨
      (decodeToken bs = .error .truncatedToken ∧ bs.length ≤ 1) := by
  cases bs with
  | nil => exact .inr ⟨rfl, Nat.zero_le 1⟩
  | cons b0 rest =>
    obtain ⟨x, rfl | rfl | rfl | rfl⟩ := exists_tag_append b0
    · exact .inl ⟨_, _, rest, .cref x, rfl⟩
    · exact .inl ⟨_, _, rest, .delta x, rfl⟩
    · cases rest with
      | nil => exact .inr ⟨(decodeToken_cut x).1, Nat.le_refl 1⟩
      | cons b1 rest => exact .inl ⟨_, _, rest, .run x b1, rfl⟩
    · cases rest with
      | nil => exact .inr ⟨(decodeToken_cut x).2, Nat.le_refl 1⟩
      | cons b1 rest => exact .inl ⟨_, _, rest, .lit x b1, rfl⟩

/-- The decoder accepts nothing outside the format table. -/
theorem tokenFormat_of_decodeToken {bs rest : List Byte} {i : Instr} (h : decodeToken bs = .ok (i, rest)) :
    ∃ tb, TokenFormat i tb ∧ bs = tb ++ rest := by
  rcases token_or_cut bs with ⟨j, tb, rest', hf, rfl⟩ | ⟨he, -⟩
  · cases (hf.decodeToken_append rest').symm.trans h
    exact ⟨tb, hf, rfl⟩
  · cases he.symm.trans h

/-! ### The header (R81, R93) -/

/-- Below a last byte, a byte of an appended word is a byte of the word before it. -/
theorem extractLsb'_append_byte {n : Nat} (w : BitVec n) (b : Byte) (k : Nat) :
    (w ++ b).extractLsb' (k + 8) 8 = w.extractLsb' k 8 := by
  rw [BitVec.extractLsb'_append_eq_of_le (Nat.le_add_left 8 k), Nat.add_sub_cancel]

/-- Writing a word read from four bytes gives the four bytes (R58). -/
theorem be32Bytes_be32 (b0 b1 b2 b3 : Byte) : be32Bytes (be32 b0 b1 b2 b3) = [b0, b1, b2, b3] := by
  have skip3 (k : Nat) : (be32 b0 b1 b2 b3).extractLsb' (k + 8) 8 = (b0 ++ b1 ++ b2).extractLsb' k 8 :=
    extractLsb'_append_byte _ b3 k
  have skip2 (k : Nat) : (b0 ++ b1 ++ b2).extractLsb' (k + 8) 8 = (b0 ++ b1).extractLsb' k 8 :=
    extractLsb'_append_byte _ b2 k
  have h3 : (be32 b0 b1 b2 b3).extractLsb' 0 8 = b3 := BitVec.extractLsb'_append_eq_right
  have h2 : (be32 b0 b1 b2 b3).extractLsb' 8 8 = b2 := (skip3 0).trans BitVec.extractLsb'_append_eq_right
  have h1 : (be32 b0 b1 b2 b3).extractLsb' 16 8 = b1 :=
    (skip3 8).trans ((skip2 0).trans BitVec.extractLsb'_append_eq_right)
  have h0 : (be32 b0 b1 b2 b3).extractLsb' 24 8 = b0 :=
    (skip3 16).trans ((skip2 8).trans BitVec.extractLsb'_append_eq_left)
  rw [be32Bytes, h0, h1, h2, h3]

theorem decodeHeader_encode (w h : Word) (rest : List Byte) :
    decodeHeader (encode (.hdr w h) ++ rest) = .ok (.hdr w h, rest) := by
  simp [encode, magicBytes, be32Bytes, decodeHeader, decodeDims]

/-- Bytes that decode as a header are the magic and the two words, written out. -/
theorem eq_hdr_of_decodeHeader {bs rest : List Byte} {i : Instr} (h : decodeHeader bs = .ok (i, rest)) :
    ∃ w ht, i = .hdr w ht ∧ bs = encode (.hdr w ht) ++ rest := by
  unfold decodeHeader at h
  split at h
  · split at h
    · next hm =>
      unfold decodeDims at h
      split at h
      · cases h
        refine ⟨_, _, rfl, ?_⟩
        rw [encode, ← hm, be32Bytes_be32, be32Bytes_be32]
        rfl
      · cases h
    · cases h
  · cases h

/-- Settles O1: a token by the format table, the header by its words, and the footer is not looked at. -/
theorem decodeInvertsEncode : Obligations.DecodeInvertsEncode := by
  intro i rest hw
  cases hr : i.region with
  | token => exact (tokenFormat_encode hw hr).decodeToken_append rest
  | preamble =>
    cases i with
    | hdr w h => exact decodeHeader_encode w h rest
    | _ => cases hr
  | trailer =>
    cases i with
    | ftr => rfl
    | _ => cases hr

/-- Settles O2: the bytes read are a row of the format table, or a header's magic and two words. -/
theorem encodeInvertsDecode : Obligations.EncodeInvertsDecode := by
  intro r bs rest i hr h
  cases r with
  | trailer => exact absurd rfl hr
  | token =>
    obtain ⟨tb, hf, rfl⟩ := tokenFormat_of_decodeToken h
    obtain ⟨hw, hreg⟩ := hf.wf_region
    exact ⟨hw, hreg, by rw [hf.encode_eq]⟩
  | preamble =>
    obtain ⟨w, ht, rfl, rfl⟩ := eq_hdr_of_decodeHeader h
    exact ⟨rfl, rfl, rfl⟩

/-! ### The assembler and the disassembler (R92, R93) -/

/-- A line that R92 admits. -/
def AsmLine.wf : AsmLine → Bool
  | .instr i => i.wf
  | .bytes _ => true

/-- The bytes a line stands for, whether or not R92 admits it. -/
def AsmLine.raw : AsmLine → List Byte
  | .instr i => Sys2Proof.encode i
  | .bytes bs => bs

theorem AsmLine.encode_eq (l : AsmLine) : l.encode = if l.wf then some l.raw else none := by
  cases l <;> rfl

/-- The assembler line by line: all the lines' bytes, or nothing. -/
theorem assemble_eq (ls : List AsmLine) :
    assemble ls = if ls.all AsmLine.wf then some (ls.flatMap AsmLine.raw) else none := by
  induction ls with
  | nil => rfl
  | cons l ls ih =>
    rw [assemble, AsmLine.encode_eq, ih, List.all_cons, List.flatMap_cons]
    cases l.wf <;> cases ls.all AsmLine.wf <;> rfl

theorem assemble_eq_none_iff (ls : List AsmLine) :
    assemble ls = none ↔ ∃ i, AsmLine.instr i ∈ ls ∧ i.wf = false := by
  have hall : assemble ls = none ↔ ∃ l ∈ ls, l.wf = false := by simp [assemble_eq]
  rw [hall]
  constructor
  · rintro ⟨l, hl, hw⟩
    cases l with
    | instr i => exact ⟨i, hl, hw⟩
    | bytes bs => cases hw
  · rintro ⟨i, hl, hw⟩
    exact ⟨.instr i, hl, hw⟩

theorem disassemble_flatMap_encode (is : List Instr) (h : ∀ i ∈ is, i.wf = true ∧ i.region = .token) :
    disassemble (is.flatMap encode) = (is, []) := by
  induction is with
  | nil => rfl
  | cons i is ih =>
    obtain ⟨⟨hw, hr⟩, hs⟩ := List.forall_mem_cons.mp h
    rw [List.flatMap_cons, (tokenFormat_encode hw hr).disassemble_append, ih hs]

theorem assemble_tokens (is : List Instr) (h : ∀ i ∈ is, i.wf = true) :
    assemble (is.map AsmLine.instr) = some (is.flatMap encode) := by
  have hall : (is.map AsmLine.instr).all AsmLine.wf = true := List.all_map.trans (List.all_eq_true.mpr h)
  rw [assemble_eq, if_pos hall, List.flatMap_map]
  rfl

/-- A token cut short is left over whole. -/
theorem disassemble_cut {bs : List Byte} (h : decodeToken bs = .error .truncatedToken) (hl : bs.length ≤ 1) :
    disassemble bs = ([], bs) := by
  match bs, hl with
  | [], _ => rfl
  | [b0], _ => simp [disassemble, h]

/-- Tokens are split off until at most one byte is left (R93). -/
theorem flatMap_encode_disassemble (bs : List Byte) :
    (disassemble bs).1.flatMap encode ++ (disassemble bs).2 = bs ∧ (disassemble bs).2.length ≤ 1 := by
  rcases token_or_cut bs with ⟨i, tb, rest, hf, rfl⟩ | ⟨he, hl⟩
  · have hlt : rest.length < (tb ++ rest).length := by cases hf <;> simp
    obtain ⟨hrest, hlen⟩ := flatMap_encode_disassemble rest
    rw [hf.disassemble_append, List.flatMap_cons, hf.encode_eq, List.append_assoc, hrest]
    exact ⟨rfl, hlen⟩
  · rw [disassemble_cut he hl]
    exact ⟨rfl, hl⟩
  termination_by bs.length

/-- Settles O3: the assembler is taken line by line and the disassembler token by token. -/
theorem disassembleInvertsAssemble : Obligations.DisassembleInvertsAssemble := by
  refine ⟨fun is h => ?_, assemble_eq_none_iff, fun ls bs h => ?_, flatMap_encode_disassemble⟩
  · exact ⟨_, assemble_tokens is fun i hi => (h i hi).1, rfl, disassemble_flatMap_encode is h⟩
  · rw [assemble_eq] at h
    split at h
    · cases h
      exact congrArg ls.flatMap (funext fun l => by cases l <;> rfl)
    · cases h

/-! ### The opcode map and the DELTA field (R88, R89) -/

theorem deltaDiff_eq (b0 : Byte) : deltaDiff b0 = ((b0.toNat % 64 : Nat) : Int) - 32 := by
  rw [deltaDiff, lowSix_toNat]

/-- Settles O4: each range of the first byte is one tag, and its operand is the byte less the range's first value. -/
theorem firstByteDecodesToOneToken : Obligations.FirstByteDecodesToOneToken := by
  intro b0 b1 rest
  have hb := b0.isLt
  refine ⟨fun h => ?cref, fun hlo hhi => ?delta, fun hlo hhi => ?run, fun h => ?lit⟩
  case cref =>
    have ht : tagOf b0 = .cref := by rw [tagOf_eq, if_pos h]
    have hi : (crefIndex b0).val = b0.toNat := (lowSix_toNat b0).trans (Nat.mod_eq_of_lt h)
    exact ⟨crefIndex b0, hi, by simp only [decode, decodeToken, ht]⟩
  case delta =>
    have ht : tagOf b0 = .delta := by rw [tagOf_eq, if_neg (Nat.not_lt.mpr hlo), if_pos hhi]
    have hd : deltaDiff b0 = (b0.toNat : Int) - 0x40 - 32 := by rw [deltaDiff_eq]; omega
    simp only [decode, decodeToken, ht, hd]
  case run =>
    have ht : tagOf b0 = .run := by rw [tagOf_eq, if_neg (by omega), if_neg (by omega), if_pos hhi]
    have hr : runLength b0 b1 = (b0.toNat - 0x80) * 256 + b1.toNat := by rw [runLength_eq]; omega
    simp only [decode, decodeToken, ht, hr]
  case lit =>
    have ht : tagOf b0 = .lit := by rw [tagOf_eq, if_neg (by omega), if_neg (by omega), if_neg (by omega)]
    have hp : (lowSix b0).toNat = b0.toNat - 0xC0 := by rw [lowSix_toNat]; omega
    exact ⟨lowSix b0, hp, by simp only [decode, decodeToken, ht]⟩

/-- Inverting the top bit of a six-bit field and reading it as two's complement takes 32 off it. -/
theorem toInt_xor_top (x : BitVec 6) : (x ^^^ 0b100000#6).toInt = (x.toNat : Int) - 32 := by decide +revert

/-- Settles O5: both readings are of the low six bits. -/
theorem deltaFieldIsBiased : Obligations.DeltaFieldIsBiased :=
  fun b0 => ⟨deltaDiff_eq b0, (toInt_xor_top (lowSix b0)).symm⟩

/-- Settles O6: each word is the encoding of its instruction. -/
theorem specWordsDecode : Obligations.SpecWordsDecode :=
  ⟨decodeInvertsEncode (.run 1023) [] rfl, decodeInvertsEncode (.lit 5#6 10#8) [] rfl,
    decodeInvertsEncode (.cref 33) [] rfl, decodeInvertsEncode (.delta 31) [] rfl,
    decodeInvertsEncode (.hdr 0x12345678#32 0x9ABCDEF0#32) [] rfl⟩

end Sys2Proof
end

section
/-!
PROOFS. The statements of 40_header_footer.md: the header step's checks and its load, the short streams that hold no
token, the footer that is never read, and which bytes a step runs as which instruction (R110 to R116).
-/
namespace Sys2Proof.Machine

/-! ### What the decoder rejects (R111, R161; assumption 12) -/

theorem decodeHeader_of_badMagic {ms : List Byte} (h4 : ms.length = 4) (hm : ms ≠ magicBytes) (rest : List Byte) :
    decodeHeader (ms ++ rest) = .error .badMagic := by
  match ms, h4 with
  | [m0, m1, m2, m3], _ => exact if_neg hm

theorem decodeDims_of_short {bs : List Byte} (h : bs.length < 8) : decodeDims bs = .error .shortHeader := by
  unfold decodeDims
  split
  · simp only [List.length_cons] at h; omega
  · rfl

theorem decodeToken_of_cut {b0 : Byte} (h : 0x80 ≤ b0.toNat) : decodeToken [b0] = .error .truncatedToken := by
  have h2 : (tagOf b0).bytes = 2 := by rw [tagOf_bytes, if_pos h]
  cases ht : tagOf b0 <;> rw [ht] at h2
  case cref | delta => cases h2
  case run | lit => simp only [decodeToken, ht]

/-- Settles O7: the magic, the eight bytes after it and a token's second byte, each missing in turn. -/
theorem badBytesRejectedByName : Obligations.BadBytesRejectedByName :=
  ⟨fun _ rest h4 hm => decodeHeader_of_badMagic h4 hm rest, fun _ h => decodeDims_of_short h,
    fun _ h => decodeToken_of_cut h⟩

/-! ### The meaning of HDR (R110, R112, R113) -/

theorem State.not_lengthOk {s : State} (h : s.streamLen.toNat < 12 ∨ s.cfg.inMemSize < s.streamLen.toNat) :
    ¬ s.LengthOk := by
  rintro ⟨hlo, hhi⟩
  unfold headerLen at hlo
  omega

theorem exec_hdr_of_lengthOk {s : State} (hl : s.LengthOk) (w h : Word) :
    exec (.hdr w h) s = .next (s.loadHeader w h) :=
  if_pos hl

theorem exec_hdr_of_not_lengthOk {s : State} (hl : ¬ s.LengthOk) (w h : Word) :
    exec (.hdr w h) s = .next (s.raiseError .badLength 0#32) :=
  if_neg hl

/-- Settles O14: `end` is N − 8 as a number, because N is at least 12 where the header is loaded. -/
theorem hdrLoadsDimensions : Obligations.HdrLoadsDimensions := fun s w h =>
  ⟨fun hlo hhi => ⟨footerBound s.streamLen, footerBound_toNat hlo, exec_hdr_of_lengthOk ⟨hlo, hhi⟩ w h⟩,
    fun hbad => exec_hdr_of_not_lengthOk (State.not_lengthOk hbad) w h⟩

/-! ### Which bytes the header step runs (R110, R111) -/

/-- The first four bytes decide BAD_MAGIC before any other byte is read. -/
theorem State.fetchHeader_of_badMagic {s : State} {ms : List Byte} (hl : s.LengthOk) (h4 : ms.length = 4)
    (hms : s.inMem.Holds 0 ms) (hm : ms ≠ magicBytes) : s.fetchHeader = .raise .badMagic 0#32 := by
  have hfits : 12 ≤ s.cfg.inMemSize := Nat.le_trans hl.1 hl.2
  have hread : s.inBytes 0 4 = .ok ms := h4 ▸ inBytes_eq (by omega) hms
  have hdec : decodeHeader ms = .error .badMagic := by simpa using decodeHeader_of_badMagic h4 hm []
  simp only [fetchHeader, if_pos hl, hread, if_neg hm, decoded, decode, hdec, errorOf]

/-- The twelve bytes of a header are run as that header. -/
theorem State.fetchHeader_of_hdr {s : State} {w h : Word} (hl : s.LengthOk)
    (hb : s.inMem.Holds 0 (encode (.hdr w h))) : s.fetchHeader = .run (.hdr w h) := by
  have hsplit : encode (.hdr w h) = magicBytes ++ (be32Bytes w ++ be32Bytes h) := List.append_assoc ..
  have hdec : decodeHeader (magicBytes ++ (be32Bytes w ++ be32Bytes h)) = .ok (.hdr w h, []) := by
    rw [← hsplit]; simpa using decodeHeader_encode w h []
  have hfits : 12 ≤ s.cfg.inMemSize := Nat.le_trans hl.1 hl.2
  rw [hsplit] at hb
  obtain ⟨hmagic, hdims⟩ := (Memory.holds_append ..).mp hb
  have hread0 : s.inBytes 0 4 = .ok magicBytes := inBytes_eq (Nat.le_trans (by decide) hfits) hmagic
  have hread4 : s.inBytes 4 8 = .ok (be32Bytes w ++ be32Bytes h) := inBytes_eq hfits hdims
  simp only [fetchHeader, if_pos hl, hread0, if_true, hread4, decoded, decode, hdec]

theorem engineStep_badLength {s : State} (hp : s.phase = .header) (hl : ¬ s.LengthOk) :
    engineStep s = .next (s.raiseError .badLength 0#32) := by
  rw [engineStep_header hp, State.fetchHeader, if_neg hl]; rfl

theorem engineStep_badMagic {s : State} {ms : List Byte} (hp : s.phase = .header) (hl : s.LengthOk)
    (h4 : ms.length = 4) (hms : s.inMem.Holds 0 ms) (hm : ms ≠ magicBytes) :
    engineStep s = .next (s.raiseError .badMagic 0#32) := by
  rw [engineStep_header hp, State.fetchHeader_of_badMagic hl h4 hms hm]; rfl

theorem engineStep_hdr {s : State} {w h : Word} (hp : s.phase = .header) (hl : s.LengthOk)
    (hb : s.inMem.Holds 0 (encode (.hdr w h))) : engineStep s = exec (.hdr w h) s := by
  rw [engineStep_header hp, State.fetchHeader_of_hdr hl hb]; rfl

theorem engineStep_loadHeader {s : State} {w h : Word} (hp : s.phase = .header) (hl : s.LengthOk)
    (hb : s.inMem.Holds 0 (encode (.hdr w h))) : engineStep s = .next (s.loadHeader w h) :=
  (engineStep_hdr hp hl hb).trans (exec_hdr_of_lengthOk hl w h)

/-- Settles O16: the length is checked before a byte is read, the magic before the dimensions, and the eight bytes
after the magic are the header of the two words they spell. -/
theorem headerStepChecksThenLoads : Obligations.HeaderStepChecksThenLoads := by
  intro s hp
  refine ⟨fun hbad => engineStep_badLength hp (State.not_lengthOk hbad), fun hlo hhi => ⟨?magic, ?load⟩⟩
  case magic => exact fun ms h4 hms hm => engineStep_badMagic hp ⟨hlo, hhi⟩ h4 hms hm
  case load =>
    intro w0 w1 w2 w3 h0 h1 h2 h3 hb
    have hbytes : encode (.hdr (be32 w0 w1 w2 w3) (be32 h0 h1 h2 h3)) =
        magicBytes ++ [w0, w1, w2, w3, h0, h1, h2, h3] := by
      rw [encode, be32Bytes_be32, be32Bytes_be32]; rfl
    rw [← hbytes] at hb
    exact ⟨footerBound s.streamLen, footerBound_toNat hlo, engineStep_loadHeader hp ⟨hlo, hhi⟩ hb⟩

/-- Settles O17: the header step is the load, and the two CSRs show what it loaded. -/
theorem headerFidelity : Obligations.HeaderFidelity := fun s w h hp hlo hhi hb =>
  ⟨s.loadHeader w h, engineStep_loadHeader hp ⟨hlo, hhi⟩ hb, rfl, rfl⟩

/-- Settles O18: the header step puts `end` at or below `ptr`, so the next step meets the footer. -/
theorem shortStreamsFinishEmpty : Obligations.ShortStreamsFinishEmpty := by
  intro s w h hinv hp ha hlo hhi hb
  have hl : s.LengthOk := ⟨hlo, Nat.le_trans hhi hinv.sizes.1⟩
  have hend : (s.loadHeader w h).tokenEnd.toNat = s.streamLen.toNat - 8 := footerBound_toNat hlo
  have hbound : (s.loadHeader w h).tokenEnd.toNat ≤ (s.loadHeader w h).ptr.toNat := by
    rw [hend]; exact Nat.sub_le_of_le_add hhi
  have hfirst : step s = .next (s.loadHeader w h) := (step_nil ha).trans (engineStep_loadHeader hp hl hb)
  have hsecond : step (s.loadHeader w h) = .next (s.loadHeader w h).finish :=
    (step_nil (s := s.loadHeader w h) ha).trans (engineStep_bound (s := s.loadHeader w h) rfl hbound)
  obtain ⟨_, _, hcount, _⟩ := hinv.fresh (.inr hp)
  refine ⟨(s.loadHeader w h).finish, ?_, rfl, hcount, rfl, hend, rfl, rfl, rfl⟩
  rw [runs_succ_of_next hfirst, runs_succ_of_next hsecond, runs_zero]

/-! ### Which bytes a token step runs (R160, R161) -/

/-- A whole token inside the region is run as the instruction of the format table. -/
theorem State.fetchToken_of_tokenFormat {s : State} {i : Instr} {tb : List Byte} (hf : TokenFormat i tb)
    (hin : s.ptr.toNat + tb.length ≤ s.tokenEnd.toNat) (hfits : s.tokenEnd.toNat ≤ s.cfg.inMemSize)
    (hb : s.inMem.Holds s.ptr.toNat tb) : s.fetchToken = .run i := by
  have hrun : decoded .token tb s.ptr = .run i := by
    have hdec : decodeToken tb = .ok (i, []) := by simpa using hf.decodeToken_append []
    simp only [decoded, decode, hdec]
  have one {b0 : Byte} (htb : tb = [b0]) (ht : (tagOf b0).bytes = 1) : s.fetchToken = .run i := by
    subst htb
    have hread0 : s.inByte s.ptr.toNat = .ok b0 := inByte_eq (Nat.le_trans hin hfits) (hb 0)
    have hnot : ¬ ((tagOf b0).bytes = 2 ∧ s.SecondByteInside) := by rw [ht]; nofun
    simp only [fetchToken, hread0, if_neg hnot, hrun]
  have two {b0 b1 : Byte} (htb : tb = [b0, b1]) (ht : (tagOf b0).bytes = 2) : s.fetchToken = .run i := by
    subst htb
    have hinside : s.SecondByteInside := hin
    have hread1 : s.inByte (s.ptr.toNat + 1) = .ok b1 := inByte_eq (Nat.le_trans hin hfits) (hb 1)
    have hread0 : s.inByte s.ptr.toNat = .ok b0 :=
      inByte_eq (Nat.lt_of_succ_lt (Nat.le_trans hin hfits)) (hb 0)
    simp only [fetchToken, hread0, if_pos (And.intro ht hinside), hread1, hrun]
  cases hf with
  | cref x => exact one rfl (by rw [tagOf_cref]; rfl)
  | delta x => exact one rfl (by rw [tagOf_delta]; rfl)
  | run x b1 => exact two rfl (by rw [tagOf_run]; rfl)
  | lit x b1 => exact two rfl (by rw [tagOf_lit]; rfl)

/-- Settles O8: bytes that decode without a rest are a row of the format table, or a header's magic and two words. -/
theorem stepRunsDecodedInstr : Obligations.StepRunsDecodedInstr := by
  refine ⟨fun s => step_nil, fun s rest => step_cons, ?token, ?header, fun s hp hb => engineStep_bound hp hb⟩
  case token =>
    intro s i bs hp _ _ hlen hin hfits hb hdec
    obtain ⟨tb, hf, hbs⟩ := tokenFormat_of_decodeToken hdec
    obtain rfl : bs = tb := hbs.trans (List.append_nil tb)
    have hpos : 0 < i.bytes := by rw [← hlen]; cases hf <;> exact Nat.succ_pos _
    rw [engineStep_token hp (by omega), State.fetchToken_of_tokenFormat hf (by omega) hfits hb]; rfl
  case header =>
    intro s i bs hp _ _ hlo hhi hb hdec
    obtain ⟨w, h, rfl, hbs⟩ := eq_hdr_of_decodeHeader hdec
    rw [List.append_nil] at hbs
    subst hbs
    exact engineStep_hdr hp ⟨hlo, hhi⟩ hb

/-! ### Another InMem under the same pass (R52, R114) -/

/-- `s` with other bytes in InMem. -/
def State.withInMem (s : State) (m : Memory) : State := { s with inMem := m }

/-- An outcome with other bytes in the InMem of its next state. -/
def outcomeWithInMem (m : Memory) : Host.Outcome State Fault Refusal → Host.Outcome State Fault Refusal
  | .next t => .next (t.withInMem m)
  | .fault r => .fault r
  | .refused r => .refused r

theorem outcomeWithInMem_halt (h : Halt) (m : Memory) : outcomeWithInMem m h.outcome = h.outcome := by
  cases h <;> rfl

theorem State.appendPixels_withInMem (k : Nat) (v : Byte) (s : State) (m : Memory) :
    appendPixels k v (s.withInMem m) = (appendPixels k v s).withInMem m := by
  induction k generalizing s with
  | zero => rfl
  | succ k ih => exact ih (s.appendPixel v)

theorem withRoom_withInMem {k : Nat} {go : State → State} {s : State} {m : Memory}
    (hgo : go (s.withInMem m) = (go s).withInMem m) :
    withRoom k go (s.withInMem m) = outcomeWithInMem m (withRoom k go s) := by
  by_cases hr : s.Room k
  · rw [withRoom_of_room go hr, withRoom_of_room (s := s.withInMem m) go hr, hgo]; rfl
  · rw [withRoom_of_not_room go hr, withRoom_of_not_room (s := s.withInMem m) go hr]; rfl

theorem withSecondByte_withInMem {go : State → Host.Outcome State Fault Refusal} {s : State} {m : Memory}
    (hgo : go (s.withInMem m) = outcomeWithInMem m (go s)) :
    withSecondByte go (s.withInMem m) = outcomeWithInMem m (withSecondByte go s) := by
  by_cases hs : s.SecondByteInside
  · rw [withSecondByte_of_inside go hs, withSecondByte_of_inside (s := s.withInMem m) go hs, hgo]
  · rw [withSecondByte_of_not_inside go hs, withSecondByte_of_not_inside (s := s.withInMem m) go hs]; rfl

theorem exec_cref_of_valid {i : Fin 64} {s : State} (hv : (s.lookup i).valid = true) :
    exec (.cref i) s = withRoom 1 (fun t => t.afterOne (t.lookup i).value) s :=
  if_pos hv

theorem exec_cref_of_empty {i : Fin 64} {s : State} (hv : ¬ (s.lookup i).valid = true) :
    exec (.cref i) s = .next (s.raiseError .unresolvedCacheRef s.ptr) :=
  if_neg hv

/-- No meaning reads InMem: an instruction's operands are all it has of the stream. -/
theorem exec_withInMem (i : Instr) (s : State) (m : Memory) :
    exec i (s.withInMem m) = outcomeWithInMem m (exec i s) := by
  cases i with
  | run len =>
    exact withSecondByte_withInMem
      (withRoom_withInMem (congrArg (State.advance · 2#32) (State.appendPixels_withInMem len s.prev s m)))
  | lit pad v => exact withSecondByte_withInMem (withRoom_withInMem rfl)
  | cref i =>
    by_cases hv : (s.lookup i).valid = true
    · rw [exec_cref_of_valid hv, exec_cref_of_valid (s := s.withInMem m) hv]
      exact withRoom_withInMem rfl
    · rw [exec_cref_of_empty hv, exec_cref_of_empty (s := s.withInMem m) hv]; rfl
  | delta d => exact withRoom_withInMem (go := fun s => s.afterOne (accumulate s.prev d)) rfl
  | hdr w h =>
    by_cases hl : s.LengthOk
    · rw [exec_hdr_of_lengthOk hl, exec_hdr_of_lengthOk (s := s.withInMem m) hl]; rfl
    · rw [exec_hdr_of_not_lengthOk hl, exec_hdr_of_not_lengthOk (s := s.withInMem m) hl]; rfl
  | ftr => rfl

theorem State.inByte_withInMem {s : State} {m : Memory} {a : Nat} (h : m.read a = s.inMem.read a) :
    (s.withInMem m).inByte a = s.inByte a := by
  simp only [inByte, withInMem, h]

theorem State.inBytes_withInMem {s : State} {m : Memory} {a n : Nat}
    (h : ∀ x, a ≤ x → x < a + n → m.read x = s.inMem.read x) : (s.withInMem m).inBytes a n = s.inBytes a n := by
  induction n generalizing a with
  | zero => rfl
  | succ n ih =>
    rw [inBytes, inBytes, inByte_withInMem (h a (Nat.le_refl a) (by omega)),
      ih fun x hlo hhi => h x (by omega) (by omega)]

theorem State.fetchHeader_withInMem {s : State} {m : Memory}
    (h : s.LengthOk → ∀ a, a < 12 → m.read a = s.inMem.read a) : (s.withInMem m).fetchHeader = s.fetchHeader := by
  by_cases hl : s.LengthOk
  · have hmagic : (s.withInMem m).inBytes 0 4 = s.inBytes 0 4 :=
      inBytes_withInMem fun x _ hx => h hl x (by omega)
    have hdims : (s.withInMem m).inBytes 4 8 = s.inBytes 4 8 := inBytes_withInMem fun x _ hx => h hl x hx
    rw [fetchHeader, fetchHeader, hmagic, hdims]; rfl
  · exact (if_neg hl).trans (if_neg hl).symm

theorem State.fetchToken_withInMem {s : State} {m : Memory} (hlt : s.ptr.toNat < s.tokenEnd.toNat)
    (h : ∀ a, s.ptr.toNat ≤ a → a < s.tokenEnd.toNat → m.read a = s.inMem.read a) :
    (s.withInMem m).fetchToken = s.fetchToken := by
  have hfirst : (s.withInMem m).inByte s.ptr.toNat = s.inByte s.ptr.toNat :=
    inByte_withInMem (h _ (Nat.le_refl _) hlt)
  have hsecond (hs : s.SecondByteInside) :
      (s.withInMem m).inByte (s.ptr.toNat + 1) = s.inByte (s.ptr.toNat + 1) :=
    inByte_withInMem (h _ (Nat.le_succ _) hs)
  have hptr : (s.withInMem m).ptr = s.ptr := rfl
  have hinside : (s.withInMem m).SecondByteInside ↔ s.SecondByteInside := Iff.rfl
  simp only [fetchToken, hptr, hfirst, hinside]
  split
  · rfl
  · split
    · next hs => rw [hsecond hs.2]
    · rfl

/-- The next step's work depends on InMem only at the offsets it may read. -/
theorem State.fetch_withInMem {s : State} {m : Memory} (h : ∀ a, s.MayRead a → m.read a = s.inMem.read a) :
    (s.withInMem m).fetch = s.fetch := by
  have hphase : (s.withInMem m).phase = s.phase := rfl
  cases hp : s.phase with
  | idle | done | error => simp only [fetch, hphase, hp]
  | header =>
    simp only [fetch, hphase, hp]
    exact fetchHeader_withInMem fun hl a ha => h a (.inl ⟨hp, hl, ha⟩)
  | tokens =>
    simp only [fetch, hphase, hp]
    by_cases hb : s.tokenEnd.toNat ≤ s.ptr.toNat
    · exact (if_pos hb).trans (if_pos hb).symm
    · rw [if_neg hb, if_neg (c := (s.withInMem m).tokenEnd.toNat ≤ (s.withInMem m).ptr.toNat) hb]
      exact fetchToken_withInMem (Nat.lt_of_not_le hb) fun a hlo hhi => h a (.inr ⟨hp, hlo, hhi⟩)

theorem perform_withInMem (f : Fetched) (s : State) (m : Memory) :
    perform f (s.withInMem m) = outcomeWithInMem m (perform f s) := by
  cases f with
  | nothing | raise => rfl
  | run i => exact exec_withInMem i s m
  | halt h => exact (outcomeWithInMem_halt h m).symm

/-- Where two InMems agree on what the next step may read, the engine takes the same step over both. -/
theorem engineStep_withInMem {s : State} {m : Memory} (h : ∀ a, s.MayRead a → m.read a = s.inMem.read a) :
    engineStep (s.withInMem m) = outcomeWithInMem m (engineStep s) := by
  rw [engineStep, State.fetch_withInMem h]
  exact perform_withInMem s.fetch s m

/-! ### The footer lies beyond every read of a pass (R113, R114) -/

/-- While tokens run, `end` is where the footer starts. It is the part of `State.Inv.bound` that keeps the engine off
the footer, and the engine keeps it in states that are not legal too. -/
def State.EndsAtFooter (s : State) : Prop := s.phase = .tokens → s.tokenEnd.toNat + 8 = s.streamLen.toNat

theorem State.EndsAtFooter.engineStep {s t : State} (h : s.EndsAtFooter) (ht : engineStep s = .next t) :
    t.EndsAtFooter := by
  cases engineStep_effect ht with
  | none => exact h
  | headerError | finish | tokenError => exact nofun
  | headerLoad _ hl w d =>
    intro _
    have h12 : 12 ≤ s.streamLen.toNat := hl.1
    rw [loadHeader_tokenEnd, footerBound_toNat h12, loadHeader_streamLen]
    omega
  | token hp _ _ _ _ _ _ _ _ _ u hu =>
    intro _
    rcases hu with rfl | rfl <;> simpa using h hp

theorem State.EndsAtFooter.below_footer {s : State} (h : s.EndsAtFooter) {a : Nat} (ha : s.MayRead a) :
    a < 12 ∨ a + 8 < s.streamLen.toNat := by
  rcases ha with ⟨_, _, h12⟩ | ⟨hp, _, hend⟩
  · exact .inl h12
  · have := h hp
    exact .inr (by omega)

/-- A pass over another InMem that agrees on the header and below the footer. -/
theorem runs_withInMem {s t : State} {m : Memory} {k : Nat} (ha : s.host.agenda = []) (hf : s.EndsAtFooter)
    (hm : ∀ a, a < 12 ∨ a + 8 < s.streamLen.toNat → m.read a = s.inMem.read a) (hr : runs k s = .next t) :
    runs k (s.withInMem m) = .next (t.withInMem m) := by
  induction k generalizing s with
  | zero => cases hr; rfl
  | succ k ih =>
    obtain ⟨u, hu, hr⟩ := runs_succ_cases hr
    rw [step_nil ha] at hu
    have hstep : step (s.withInMem m) = .next (u.withInMem m) := by
      rw [step_nil (s := s.withInMem m) ha, engineStep_withInMem fun a hread => hm a (hf.below_footer hread), hu]
      rfl
    obtain ⟨hin, hlen, _, hhost⟩ := engineNeverWritesInput s u hu
    rw [runs_succ_of_next hstep]
    exact ih (by rw [hhost, ha]) (hf.engineStep hu) (by rw [hlen, hin]; exact hm) hr

/-- Settles O46: before the header step there is no `end` yet, and the header step puts it where the footer starts. -/
theorem footerIsNeverRead : Obligations.FooterIsNeverRead := fun s _ _ _ hp ha hm hr =>
  runs_withInMem ha (fun hp' => by rw [hp] at hp'; cases hp') hm hr

end Sys2Proof.Machine
end

section
/-!
PROOFS. The statements of 41_units.md: which steps change the cache, and the delta that carries one brightness to
another (R134, R138).
-/
namespace Sys2Proof.Machine

/-! ### The cache (R134) -/

/-- What a fill leaves in each slot, the slot by its number `v >> 2` (R131, R132). -/
theorem Cache.get_fill_val (c : Cache) (v : Byte) (i : Fin 64) :
    (c.fill v).get i = if i.val = v.toNat / 4 then ⟨true, v⟩ else c.get i := by
  simp only [Cache.get_fill, Fin.ext_iff, hash_val]

/-- An engine step leaves the cache, or it ran a LIT and filled the slot of the LIT's value. -/
theorem engineStep_cache {s t : State} (ht : engineStep s = .next t) :
    t.cache = s.cache ∨
    (s.phase = .tokens ∧ ∃ b0 v : Byte, s.inMem.read s.ptr.toNat = some b0 ∧ 0xC0 ≤ b0.toNat ∧
      s.inMem.read (s.ptr.toNat + 1) = some v ∧
      ∀ i : Fin 64, t.cache.get i = if i.val = v.toNat / 4 then ⟨true, v⟩ else s.cache.get i) := by
  rcases engineStep_cases ht with ⟨_, rfl⟩ | ⟨_, _, rfl⟩ | ⟨_, _, _, rfl⟩ |
    ⟨_, _, _, _, _, _, _, _, _, _, _, rfl⟩ | ⟨_, _, rfl⟩ | ⟨hp, _, b0, hb0, htok⟩
  case inr.inr.inr.inr.inr =>
    rcases htok with ⟨_, ⟨_, rfl⟩ | ⟨_, _, rfl⟩ | ⟨_, _, rfl⟩⟩ | ⟨_, _, ⟨_, rfl⟩ | ⟨_, rfl⟩⟩ | ⟨_, _, rfl⟩ |
      ⟨_, v, hv, ⟨_, _, ⟨_, rfl⟩ | ⟨_, rfl⟩⟩ | ⟨hc0, ⟨_, rfl⟩ | ⟨_, rfl⟩⟩⟩
    case inr.inr.inr.inr.inr => exact .inr ⟨hp, b0, v, hb0, hc0, hv, Cache.get_fill_val s.cache v⟩ -- LIT
    case inr.inr.inr.inl.inr => exact .inl (State.appendPixels_cache _ _ s) -- RUN
    all_goals exact .inl rfl
  all_goals exact .inl rfl

/-- A host action leaves the cache, or it is a START that the engine accepts. -/
theorem hostAct_cache {op : HostOp} {s t : State} (ht : hostAct op s = .next t) :
    t.cache = s.cache ∨
    ∃ w : Word, op = .csrWrite 4 0x000 w ∧ w[0] = true ∧ ¬ s.Busy ∧ t.cache = Cache.empty := by
  rcases hostAct_cases ht with ⟨w, hop, h0, hb, rfl⟩ | ⟨_, _, _, rfl⟩ | ⟨_, _, _, rfl⟩ | ⟨_, _, _, _, _, rfl⟩ |
    ⟨_, rfl, _⟩
  · exact .inr ⟨w, hop, h0, hb, rfl⟩
  all_goals exact .inl rfl

/-- Settles O27: of the engine's steps only a LIT writes the cache, and of the host's actions only START. -/
theorem onlyLitStartResetChangeCache : Obligations.OnlyLitStartResetChangeCache := by
  intro s t ht hne
  rcases step_cases s with ⟨ha, e⟩ | ⟨rest, ha, e⟩ | ⟨rest, ha, _⟩ | ⟨op, rest, ha, e⟩
  · rw [e] at ht
    exact .inr (.inr ⟨.inl ha, (engineStep_cache ht).resolve_left hne⟩)
  · rw [e] at ht
    exact .inr (.inr ⟨.inr ⟨rest, ha⟩, (engineStep_cache ht).resolve_left hne⟩)
  · exact .inl ⟨rest, ha⟩
  · rw [e] at ht
    obtain ⟨w, rfl, h0, hb, hempty⟩ := (hostAct_cache ht).resolve_left hne
    exact .inr (.inl ⟨w, rest, ha, h0, hb, fun i => hempty ▸ Cache.get_empty i⟩)

/-! ### The delta_accumulator (R137, R138) -/

/-- The signed difference of two brightnesses carries the one to the other, in range of a DELTA or not. -/
theorem accumulate_toInt_sub (p v : Byte) : accumulate p (v - p).toInt = v := by
  rw [accumulate, BitVec.ofInt_add, BitVec.ofInt_natCast, BitVec.ofNat_toNat, BitVec.setWidth_eq, BitVec.ofInt_toInt,
    BitVec.add_comm, BitVec.sub_add_cancel]

/-- A difference that fits has its DELTA byte, `0x40` and the biased field (R87, R88). -/
theorem exists_delta_byte {d : Int} (hlo : -32 ≤ d) (hhi : d ≤ 31) :
    ∃ b0 : Byte, (b0.toNat : Int) = 0x40 + (d + 32) ∧ deltaDiff b0 = d := by
  have hb : ((BitVec.ofInt 8 (0x40 + (d + 32))).toNat : Int) = 0x40 + (d + 32) := by
    rw [BitVec.toNat_ofInt]; omega
  exact ⟨_, hb, by rw [deltaDiff_eq]; omega⟩

/-- Settles O49: the DELTA byte of the difference carries exactly that difference. -/
theorem deltaInverse : Obligations.DeltaInverse := by
  intro p v hlo hhi
  obtain ⟨b0, hb0, hdiff⟩ := exists_delta_byte hlo hhi
  exact ⟨b0, hb0, by rw [hdiff, accumulate_toInt_sub]⟩

end Sys2Proof.Machine
end

section
/-!
PROOFS. The statements of 42_tokens.md: what each of the four tokens and the footer does, which bytes at `ptr` run it,
and that every pass over a loaded stream ends (R160 to R167).
-/
namespace Sys2Proof.Machine

/-! ### Which bytes at `ptr` run a token (R160, R161) -/

theorem Memory.holds_singleton {m : Memory} {a : Nat} {b : Byte} (h : m.read a = some b) : m.Holds a [b] :=
  (holds_cons ..).mpr ⟨h, holds_nil m (a + 1)⟩

/-- Bytes inside the region that the decoder takes as one whole token, whatever it is given after them, are run as
that token. -/
theorem engineStep_of_decode {s : State} {i : Instr} {tb rest : List Byte}
    (hdec : decode .token (tb ++ rest) = .ok (i, rest)) (hp : s.phase = .tokens)
    (hin : s.ptr.toNat + tb.length ≤ s.tokenEnd.toNat) (hfits : s.tokenEnd.toNat ≤ s.cfg.inMemSize)
    (hb : s.inMem.Holds s.ptr.toNat tb) : engineStep s = exec i s := by
  obtain ⟨tb', hf, hsplit⟩ := tokenFormat_of_decodeToken hdec
  obtain rfl : tb = tb' := List.append_cancel_right hsplit
  have hpos : 0 < tb.length := by cases hf <;> exact Nat.succ_pos _
  rw [engineStep_token hp (by omega), State.fetchToken_of_tokenFormat hf hin hfits hb]; rfl

/-- A two-byte token whose second byte is not inside the region is not read further (R161). -/
theorem State.fetchToken_of_cut {s : State} {b0 : Byte} (hin : s.ptr.toNat < s.cfg.inMemSize)
    (hb : s.inMem.read s.ptr.toNat = some b0) (h80 : 0x80 ≤ b0.toNat) (hcut : ¬ s.SecondByteInside) :
    s.fetchToken = .raise .truncatedToken s.ptr := by
  have hnot : ¬ ((tagOf b0).bytes = 2 ∧ s.SecondByteInside) := fun h => hcut h.2
  simp only [fetchToken, inByte_eq hin hb, if_neg hnot, decoded, decode, decodeToken_of_cut h80, errorOf]

/-- Settles O19: the second byte would lie at `end`, so it is missing before it is read. -/
theorem straddlingTokenIsTruncated : Obligations.StraddlingTokenIsTruncated := by
  intro s b0 hp hlast hin hb h80
  have hcut : ¬ s.SecondByteInside := Nat.not_lt.mpr (Nat.le_of_eq hlast.symm)
  rw [engineStep_token hp (by omega), State.fetchToken_of_cut hin hb h80 hcut]; rfl

/-! ### The meanings of the tokens (R162 to R165) -/

/-- Settles O10: the run's pixels stand at the `len` offsets from `out_count`, and its length is the field
`b0[5:0] ++ b1`. -/
theorem runRepeatsPrev : Obligations.RunRepeatsPrev := by
  intro s len hsizes
  refine ⟨fun hin hroom => ?completes, fun hcut => ?truncated, fun hin hfull => ?overflow,
    fun b0 b1 hp hin hfits hb hlo hhi hlen => ?bytes⟩
  case completes =>
    refine ⟨(State.appendPixels len s.prev s).pixMem, ?_, fun a => ?_⟩
    · have hexec : exec (.run len) s = .next ((State.appendPixels len s.prev s).advance 2#32) :=
        (withSecondByte_of_inside _ hin).trans (withRoom_of_room _ hroom)
      rw [hexec, State.appendPixels_eq]; rfl
    · exact State.read_appendPixels (Nat.le_trans hroom hsizes.2.2) a
  case truncated => exact withSecondByte_of_not_inside _ (Nat.not_lt.mpr hcut)
  case overflow => exact (withSecondByte_of_inside _ hin).trans (withRoom_of_not_room _ (Nat.not_le.mpr hfull))
  case bytes =>
    obtain ⟨-, -, hrun, -⟩ := firstByteDecodesToOneToken b0 b1 []
    rw [hlen]
    exact engineStep_of_decode (tb := [b0, b1]) (hrun hlo hhi) hp hin hfits hb

/-- Settles O11: the slot filled is `v >> 2`, and the pad of the first byte makes no difference. -/
theorem litFillsAndAppends : Obligations.LitFillsAndAppends := by
  intro s pad v
  refine ⟨fun hin hroom => ?completes, fun hcut => ?truncated, fun hin hfull => ?overflow,
    fun b0 hp hin hfits hb hlo => ?bytes⟩
  case completes =>
    exact ⟨s.cache.fill v, s.pixMem.write s.outCount.toNat v,
      (withSecondByte_of_inside _ hin).trans (withRoom_of_room _ hroom), Cache.get_fill_val s.cache v,
      fun a => Memory.read_write s.pixMem _ a v⟩
  case truncated => exact withSecondByte_of_not_inside _ (Nat.not_lt.mpr hcut)
  case overflow => exact (withSecondByte_of_inside _ hin).trans (withRoom_of_not_room _ (Nat.not_le.mpr hfull))
  case bytes =>
    obtain ⟨-, -, -, hlit⟩ := firstByteDecodesToOneToken b0 v []
    obtain ⟨p, -, hdec⟩ := hlit hlo
    have hpad : exec (.lit p v) s = exec (.lit pad v) s := rfl
    rw [← hpad]
    exact engineStep_of_decode (tb := [b0, v]) hdec hp hin hfits hb

/-- Settles O12: an empty slot is found before room is checked, and the byte `i` is CREF `i`. -/
theorem crefAppendsSlot : Obligations.CrefAppendsSlot := by
  intro s i
  refine ⟨fun hv hroom => ?completes, fun hempty => ?unresolved, fun hv hfull => ?overflow,
    fun hp hin hfits hb => ?bytes⟩
  case completes =>
    exact ⟨s.pixMem.write s.outCount.toNat (s.lookup i).value,
      (exec_cref_of_valid hv).trans (withRoom_of_room _ hroom), fun a => Memory.read_write s.pixMem _ a _⟩
  case unresolved => exact exec_cref_of_empty (Bool.eq_false_iff.mp hempty)
  case overflow => exact (exec_cref_of_valid hv).trans (withRoom_of_not_room _ (Nat.not_le.mpr hfull))
  case bytes =>
    have hi : (BitVec.ofNat 8 i).toNat = i := by rw [BitVec.toNat_ofNat]; omega
    obtain ⟨hcref, -⟩ := firstByteDecodesToOneToken (BitVec.ofNat 8 i) 0#8 []
    obtain ⟨j, hj, hdec⟩ := hcref (by omega)
    obtain rfl : j = i := Fin.ext (hj.trans hi)
    exact engineStep_of_decode (tb := [_]) hdec hp hin hfits (Memory.holds_singleton hb)

theorem exec_delta (d : Int) (s : State) :
    exec (.delta d) s = withRoom 1 (fun t => t.afterOne (accumulate t.prev d)) s := rfl

/-- Settles O13: the accumulator's sum is taken modulo 256, and the byte's field is biased by 32. -/
theorem deltaAddsModulo256 : Obligations.DeltaAddsModulo256 := by
  intro s d
  refine ⟨fun hroom => ?completes, fun hfull => ?overflow, fun b0 hp hin hfits hb hlo hhi hd => ?bytes⟩
  case completes =>
    exact ⟨accumulate s.prev d, s.pixMem.write s.outCount.toNat (accumulate s.prev d), accumulate_toNat s.prev d,
      (exec_delta d s).trans (withRoom_of_room _ hroom), fun a => Memory.read_write s.pixMem _ a _⟩
  case overflow => exact (exec_delta d s).trans (withRoom_of_not_room _ (Nat.not_le.mpr hfull))
  case bytes =>
    obtain ⟨-, hdelta, -⟩ := firstByteDecodesToOneToken b0 0#8 []
    rw [hd]
    exact engineStep_of_decode (tb := [b0]) (hdelta hlo hhi) hp hin hfits (Memory.holds_singleton hb)

/-- Settles O15: FTR's meaning is the finishing step. -/
theorem ftrOnlyFinishes : Obligations.FtrOnlyFinishes := fun _ => rfl

/-! ### Every pass ends (R167) -/

/-- Over a loaded stream no engine step stops: all that a legal state may read lies inside the stream (R51). -/
theorem State.Inv.engineStep_next {s : State} (h : s.Inv) (hl : s.LengthOk → s.Loaded) :
    ∃ t, Machine.engineStep s = .next t := by
  rcases engineStep_stops s with hnext | ⟨a, ha, ⟨hn, _⟩ | ⟨_, e⟩⟩
  · exact hnext
  · have hread : (s.inMem.read a).isSome = true := by
      rcases ha with ⟨_, hlen, h12⟩ | ⟨hp, _, hend⟩
      · exact hl hlen a (Nat.lt_of_lt_of_le h12 hlen.1)
      · obtain ⟨hlen, hbound⟩ := h.bound hp
        exact hl hlen a (by omega)
    rw [hn] at hread; cases hread
  · exact absurd e (h.engineStep_ne_fault _)

/-- A token step ends the pass or stays in phase TOKENS, where `end` is fixed. -/
theorem engineStep_over_or_tokens {s t : State} (hp : s.phase = .tokens) (ht : engineStep s = .next t) :
    t.Over ∨ (t.phase = .tokens ∧ t.tokenEnd = s.tokenEnd) := by
  cases engineStep_effect ht with
  | none hb => exact absurd (.inr hp) hb
  | headerError hh | headerLoad hh => rw [hp] at hh; cases hh
  | finish => exact .inl (.inl rfl)
  | tokenError => exact .inl (.inr rfl)
  | token _ _ _ _ _ _ _ _ _ _ u hu => rcases hu with rfl | rfl <;> exact .inr (by simp [hp])

/-- A token step that does not end the pass moves `ptr` up, at most to `end` (R160). -/
theorem State.Inv.engineStep_over_or_advances {s t : State} (h : s.Inv) (hp : s.phase = .tokens)
    (ht : Machine.engineStep s = .next t) :
    t.Over ∨ (t.phase = .tokens ∧ t.tokenEnd = s.tokenEnd ∧ s.ptr.toNat < t.ptr.toNat ∧
      t.ptr.toNat ≤ t.tokenEnd.toNat) := by
  rcases engineStep_over_or_tokens hp ht with hover | ⟨hpt, hend⟩
  · exact .inl hover
  · rcases ptrMovesByTokenLength s t h hp ht with ⟨_, hle, b0, _, hmove⟩ | ⟨hne, _⟩
    · have hlt : s.ptr.toNat < t.ptr.toNat := by rw [hmove]; split <;> omega
      exact .inr ⟨hpt, hend, hlt, hle⟩
    · exact absurd hpt hne

/-- The header step ends the pass, or puts `ptr` at offset 12 and `end` at the footer. -/
theorem engineStep_over_or_loads {s t : State} (hp : s.phase = .header) (ht : engineStep s = .next t) :
    t.Over ∨ (t.phase = .tokens ∧ t.ptr.toNat = 12 ∧ t.tokenEnd.toNat = s.streamLen.toNat - 8) := by
  cases engineStep_effect ht with
  | none hb => exact absurd (.inl hp) hb
  | headerError => exact .inl (.inr rfl)
  | headerLoad _ hl => exact .inr ⟨rfl, rfl, footerBound_toNat hl.1⟩
  | finish hh | tokenError hh | token hh => rw [hp] at hh; cases hh

/-- What a pass needs in order not to stop: a legal state, the whole stream written, and nothing else planned. -/
structure State.Unhindered (s : State) : Prop where
  inv : s.Inv
  loaded : s.LengthOk → s.Loaded
  agenda : s.host.agenda = []

/-- An unhindered machine takes an engine step, and is unhindered after it. -/
theorem State.Unhindered.step {s : State} (h : s.Unhindered) :
    ∃ t, Machine.step s = .next t ∧ engineStep s = .next t ∧ t.Unhindered := by
  obtain ⟨t, ht⟩ := h.inv.engineStep_next h.loaded
  obtain ⟨hin, hlen, hcfg, hhost⟩ := engineNeverWritesInput s t ht
  refine ⟨t, (step_nil h.agenda).trans ht, ht, h.inv.engineStep ht, ?_, by rw [hhost, h.agenda]⟩
  simpa only [LengthOk, Loaded, hin, hlen, hcfg] using h.loaded

/-- Token steps end the pass, one step after `ptr` has used up the `n` bytes up to `end` at the latest. -/
theorem State.Unhindered.tokens_end {s : State} {n : Nat} (h : s.Unhindered) (hp : s.phase = .tokens)
    (hn : s.tokenEnd.toNat ≤ s.ptr.toNat + n) :
    ∃ (k : Nat) (t : State), k ≤ n + 1 ∧ runs k s = .next t ∧ t.Over := by
  induction n using Nat.strong_induction_on generalizing s with
  | _ n ih =>
    obtain ⟨t, hstep, heng, ht⟩ := h.step
    rcases h.inv.engineStep_over_or_advances hp heng with hover | ⟨hpt, hend, hlt, hle⟩
    · exact ⟨1, t, by omega, runs_succ_of_next hstep 0, hover⟩
    · rw [hend] at hle
      obtain ⟨k, u, hk, hrun, hover⟩ := ih (n - 1) (by omega) ht hpt (by rw [hend]; omega)
      exact ⟨k + 1, u, by omega, (runs_succ_of_next hstep k).trans hrun, hover⟩

/-- A pass at its header step ends: the header step, a step per token, and the step that meets the footer. -/
theorem State.Unhindered.pass_ends {s : State} (h : s.Unhindered) (hp : s.phase = .header) :
    ∃ (k : Nat) (t : State), k ≤ (s.streamLen.toNat - 20) + 2 ∧ runs k s = .next t ∧ t.Over := by
  obtain ⟨t, hstep, heng, ht⟩ := h.step
  rcases engineStep_over_or_loads hp heng with hover | ⟨hpt, hptr, hend⟩
  · exact ⟨1, t, by omega, runs_succ_of_next hstep 0, hover⟩
  · obtain ⟨k, u, hk, hrun, hover⟩ := ht.tokens_end (n := s.streamLen.toNat - 20) hpt (by omega)
    exact ⟨k + 1, u, by omega, (runs_succ_of_next hstep k).trans hrun, hover⟩

/-- A START that the engine accepts (R193). -/
theorem step_startEvent {s : State} {rest : List Event} (hb : ¬ s.Busy) (ha : s.host.agenda = startEvent :: rest) :
    step s = .next (s.withAgenda rest).startPass :=
  (step_csrWrite ha rfl (by decide)).trans (congrArg _ (if_pos ⟨rfl, hb⟩))

/-- Settles O47: START leaves a pass at its header step, over the stream that stood in InMem. -/
theorem passTerminates : Obligations.PassTerminates := by
  intro s h hb ha hl
  have hstart : (s.withAgenda []).startPass.Unhindered :=
    ⟨(h.withHost _ : (s.withAgenda []).Inv).startPass, hl, rfl⟩
  obtain ⟨k, t, hk, hrun, hover⟩ := hstart.pass_ends rfl
  exact ⟨k, t, hk, (runs_add (runs_succ_of_next (step_startEvent hb ha) 0) k).trans hrun, hover⟩

end Sys2Proof.Machine
end

section
/-!
PROOFS. The statements of 43_host_interface.md: what a CSR read answers, and what a CSR write does to the registers
(R190 to R194).
-/
namespace Sys2Proof.Machine

/-! ### What a CSR read answers (R33 to R44, R190) -/

/-- The fields of a CACHE[i] register (R44). -/
theorem Slot.word_fields (c : Slot) :
    c.word.extractLsb' 0 8 = c.value ∧ c.word[8] = c.valid ∧ c.word.extractLsb' 9 23 = 0#23 := by
  obtain ⟨valid, value⟩ := c
  simp only [Slot.word]
  decide +revert

/-- PREV stands in bits 7 to 0, with zeros above (R43). -/
theorem State.csr_prev (s : State) : s.csr .prev = s.prev.setWidth 32 :=
  (BitVec.setWidth_eq_append (by decide)).symm

theorem State.csrAt_cache (s : State) (i : Fin 64) : s.csrAt (0x100 + 4 * i.val) = (s.lookup i).word := by
  have hmap : Csr.ofOffset (0x100 + 4 * i.val) = some (.cache i) := Csr.ofOffset_cache i
  simp only [csrAt, hmap, csr]

/-- No register lies between PREV and the cache's slots (R33). -/
theorem Csr.ofOffset_gap {o : Nat} (hlo : 0x028 ≤ o) (hhi : o < 0x100) : Csr.ofOffset o = none := by
  have below (n : Nat) (hn : n < 0x028) : o ≠ n := by omega
  simp [ofOffset, below, hhi]

theorem State.csrAt_gap (s : State) {o : Nat} (hlo : 0x028 ≤ o) (hhi : o < 0x100) : s.csrAt o = 0#32 := by
  simp only [csrAt, Csr.ofOffset_gap hlo hhi]

/-! ### What a CSR read does to the host's side (R64) -/

/-- A read that shows the end of no pass only hands over the datum. -/
theorem State.csrLoad_of_not_status {s : State} {o : Nat} (h : ¬ (o = 0x004 ∧ s.Over)) :
    s.csrLoad o = s.observe (.word (s.csrAt o)) :=
  if_neg fun ⟨hmap, hbits⟩ => h ⟨(Csr.offset_of_ofOffset hmap).symm, s.doneBit_or_errBit.mp hbits⟩

/-- A CSR read hands over the datum; of the record of R64 only a STATUS read that shows the end of a pass writes. -/
theorem State.csrLoad_eq (s : State) (o : Nat) :
    ∃ (sy : Bool) (us : List Extent),
      s.csrLoad o = { s with
        host := { s.host with
          observed := .word (s.csrAt o) :: s.host.observed, synced := sy, unseen := us } } ∧
      if o = 0x004 ∧ s.Over then sy = true else sy = s.host.synced ∧ us = s.host.unseen := by
  by_cases hend : o = 0x004 ∧ s.Over
  · obtain ⟨rfl, hover⟩ := hend
    exact ⟨true, _, csrLoad_status hover, by rw [if_pos ⟨rfl, hover⟩]⟩
  · exact ⟨s.host.synced, s.host.unseen, csrLoad_of_not_status hend, by rw [if_neg hend]; exact ⟨rfl, rfl⟩⟩

/-- Settles O32: the datum is `csrAt` of the offset, which is mapped to one register, to a slot, or to none. -/
theorem csrReadReturnsRegister : Obligations.CsrReadReturnsRegister := by
  intro s o rest h4 hl ha
  obtain ⟨sy, us, hload, hrecord⟩ := (s.withAgenda rest).csrLoad_eq o
  have hstep := (step_csrRead ha h4 hl).trans (congrArg _ hload)
  refine ⟨s.csrAt o, sy, us, hstep, hrecord, ?ctrl, ?status, ?streamLen, ?width, ?height, ?outCount, ?tokenPtr,
    ?tokenEnd, ?errOffset, ?prev, s.csrAt_gap, fun i ho => ?slot⟩
  case prev => rintro rfl; exact s.csr_prev
  case slot => rw [ho, s.csrAt_cache i]; exact Slot.word_fields _
  all_goals rintro rfl; rfl

/-! ### What a CSR write does (R191 to R194) -/

/-- Settles O33: of the three effects a CSR write can have, two are at the offsets left out. -/
theorem readOnlyCsrWritesIgnored : Obligations.ReadOnlyCsrWritesIgnored := by
  intro s o w rest h4 hl hctrl hlen ha
  rcases (s.withAgenda rest).csrStore_cases o w with ⟨ho, _⟩ | ⟨ho, _⟩ | hkept
  · exact absurd ho hctrl
  · exact absurd ho hlen
  · exact (step_csrWrite ha h4 hl).trans (congrArg _ hkept)

theorem step_streamLenWrite {s : State} {w : Word} {rest : List Event}
    (ha : s.host.agenda = .host (.csrWrite 4 0x008 w) :: rest) :
    step s = .next ((s.withAgenda rest).writeStreamLen w) :=
  step_csrWrite ha (by decide) (by decide)

/-- Settles O34: the write's one check is whether the engine is busy. -/
theorem streamLenWrite : Obligations.StreamLenWrite := by
  intro s w rest ha
  refine ⟨fun hidle => ⟨_, ?_, rfl, rfl⟩, fun hbusy => ?_⟩
  · exact (step_streamLenWrite ha).trans (congrArg _ (if_neg hidle))
  · exact (step_streamLenWrite ha).trans (congrArg _ (if_pos hbusy))

theorem step_ctrlWrite {s : State} {w : Word} {rest : List Event}
    (ha : s.host.agenda = .host (.csrWrite 4 0x000 w) :: rest) :
    step s = .next ((s.withAgenda rest).writeCtrl w) :=
  step_csrWrite ha (by decide) (by decide)

/-- Settles O35: the write is START, whose cache reads empty in every slot. -/
theorem startClearsThePass : Obligations.StartClearsThePass := fun _ _ _ ha h0 hidle =>
  ⟨Cache.empty, Cache.get_empty, (step_ctrlWrite ha).trans (congrArg _ (if_pos ⟨h0, hidle⟩))⟩

/-- Settles O36: a CTRL write that starts a pass has bit 0 set and finds the engine not busy. -/
theorem startWhileBusyIgnored : Obligations.StartWhileBusyIgnored := by
  intro s w rest ha hignored
  rcases (s.withAgenda rest).writeCtrl_cases w with ⟨h0, hidle, _⟩ | ⟨_, hkept⟩
  · rcases hignored with hbusy | hclear
    · exact absurd hbusy hidle
    · rw [hclear] at h0; cases h0
  · exact (step_ctrlWrite ha).trans (congrArg _ hkept)

end Sys2Proof.Machine
end

section
/-!
PROOFS. The statements of 48_reference_encoder.md about the reference producer alone: its luma formula and the tokens
that it emits (R210 to R228). The producer is no hardware (R6).
-/
namespace Sys2Proof.Machine

/-! ### The luma formula (R210) -/

/-- Settles O50: the weights add up to 100, so the weighted mean of three bytes is below 256. -/
theorem lumaIsTheWeightedMean : Obligations.LumaIsTheWeightedMean := by
  intro r g b
  have hr := r.isLt
  have hg := g.isLt
  have hb := b.isLt
  rw [Producer.luma, BitVec.toNat_ofNat]
  exact Nat.mod_eq_of_lt (by omega)

/-- An encoding takes the bytes that its form has (R81 to R83). -/
theorem encode_length (i : Instr) : (encode i).length = i.bytes :=
  match i with
  | .run len => Laws.EncodeLength.run len
  | .lit pad v => Laws.EncodeLength.lit pad v
  | .cref x => Laws.EncodeLength.cref x
  | .delta d => Laws.EncodeLength.delta d
  | .hdr w h => Laws.EncodeLength.hdr w h
  | .ftr => Laws.EncodeLength.ftr

namespace Producer

/-! ### One token of the producer (R213 to R218) -/

/-- `Emits r i k r'`: in the running state `r` the producer may emit `i`, which stands for `k` pixels of the
brightness `r'.prev` and leaves the running state `r'`. -/
inductive Emits (r : Running) : Instr → Nat → Running → Prop
  | run (k : Nat) (two : 2 ≤ k) (cap : k ≤ 1023) : Emits r (.run k) k r
  | lit (v : Byte) : Emits r (.lit 0#6 v) 1 ⟨v, r.cache.fill v⟩
  | cref (v : Byte) (hit : r.cache.get (hash v) = ⟨true, v⟩) : Emits r (.cref (hash v)) 1 ⟨v, r.cache⟩
  | delta (v : Byte) (valid : (r.cache.get (hash v)).valid = true) (other : (r.cache.get (hash v)).value ≠ v)
      (lo : -32 ≤ (v - r.prev).toInt) (hi : (v - r.prev).toInt ≤ 31) :
      Emits r (.delta (v - r.prev).toInt) 1 ⟨v, r.cache⟩

section
variable {r : Running} {v : Byte}

theorem single_of_empty (h : (r.cache.get (hash v)).valid = false) : single r v = .lit 0#6 v := if_pos h

theorem single_of_hit (h : r.cache.get (hash v) = ⟨true, v⟩) : single r v = .cref (hash v) := by
  rw [single, h, if_neg nofun, if_pos rfl]

theorem single_of_near (hv : (r.cache.get (hash v)).valid = true) (ho : (r.cache.get (hash v)).value ≠ v)
    (hd : -32 ≤ (v - r.prev).toInt ∧ (v - r.prev).toInt ≤ 31) : single r v = .delta (v - r.prev).toInt := by
  rw [single, hv, if_neg nofun, if_neg ho, if_pos hd]

theorem single_of_far (hv : (r.cache.get (hash v)).valid = true) (ho : (r.cache.get (hash v)).value ≠ v)
    (hd : ¬ (-32 ≤ (v - r.prev).toInt ∧ (v - r.prev).toInt ≤ 31)) : single r v = .lit 0#6 v := by
  rw [single, hv, if_neg nofun, if_neg ho, if_neg hd]

/-- After the token of one value, that value is `prev`. -/
@[simp] theorem after_prev (r : Running) (v : Byte) : (r.after v).prev = v := by
  unfold Running.after
  split <;> rfl

/-- Steps 2 to 5 emit one of the three tokens of one pixel. -/
theorem emits_single (r : Running) (v : Byte) : Emits r (single r v) 1 (r.after v) := by
  have lit (h : single r v = .lit 0#6 v) : Emits r (single r v) 1 (r.after v) := by
    simp only [Running.after, h]; exact .lit v
  by_cases hv : (r.cache.get (hash v)).valid = true
  · by_cases ho : (r.cache.get (hash v)).value = v
    · have hit : r.cache.get (hash v) = ⟨true, v⟩ := congrArg₂ Slot.mk hv ho
      simp only [Running.after, single_of_hit hit]; exact .cref v hit
    · by_cases hd : -32 ≤ (v - r.prev).toInt ∧ (v - r.prev).toInt ≤ 31
      · simp only [Running.after, single_of_near hv ho hd]; exact .delta v hv ho hd.1 hd.2
      · exact lit (single_of_far hv ho hd)
  · exact lit (single_of_empty (Bool.eq_false_iff.mpr hv))

/-- Only step 4 emits a DELTA. -/
theorem of_single_eq_delta {d : Int} (h : single r v = .delta d) :
    (r.cache.get (hash v)).valid = true ∧ (r.cache.get (hash v)).value ≠ v ∧ -32 ≤ d ∧ d ≤ 31 ∧
      d = (v - r.prev).toInt := by
  have he := emits_single r v
  have hprev := after_prev r v
  generalize r.after v = r' at he hprev
  rw [h] at he
  cases he with
  | delta u valid other lo hi =>
    obtain rfl : u = v := hprev
    exact ⟨valid, other, lo, hi, rfl⟩

end

/-! ### The whole trace (R214, R219) -/

/-- `Traces r pixels tr`: from the running state `r` the producer goes over the pixels in the tokens of `tr`, each with
the running state after it. -/
inductive Traces : Running → List Byte → List (Instr × Running) → Prop
  | nil (r : Running) : Traces r [] []
  | cons {r r' : Running} {i : Instr} {k : Nat} {rest : List Byte} {tr : List (Instr × Running)}
      (token : Emits r i k r') (further : Traces r' rest tr) :
      Traces r (List.replicate k r'.prev ++ rest) ((i, r') :: tr)

theorem runScan_le (p : Byte) (pixels : List Byte) : runScan p pixels ≤ 1023 := Nat.min_le_left ..

theorem runScan_replicate (p : Byte) (n : Nat) : runScan p (List.replicate n p) = min 1023 n := by
  simp [runScan]

/-- The pixels that the scan counts are copies of `prev`, and the others follow them. -/
theorem replicate_runScan_append_drop (p : Byte) (pixels : List Byte) :
    List.replicate (runScan p pixels) p ++ pixels.drop (runScan p pixels) = pixels := by
  have hlen : runScan p pixels ≤ (pixels.takeWhile (fun v => v == p)).length := Nat.min_le_right ..
  have hall : pixels.takeWhile (fun v => v == p) =
      List.replicate (pixels.takeWhile (fun v => v == p)).length p :=
    List.eq_replicate_of_mem fun v hv => by simpa using List.mem_takeWhile_imp hv
  have hsplit := List.takeWhile_append_dropWhile (p := fun v => v == p) (l := pixels)
  generalize runScan p pixels = k at hlen
  have htake : pixels.take k = List.replicate k p := by
    rw [← hsplit, List.take_append_of_le_length hlen, hall, List.take_replicate, Nat.min_eq_left hlen]
  rw [← htake, List.take_append_drop]

theorem trace_nil (fuel : Nat) (r : Running) : trace fuel r [] = [] := by
  cases fuel <;> rfl

theorem trace_of_run {r : Running} {pixels : List Byte} (h : 2 ≤ runScan r.prev pixels) (fuel : Nat) :
    trace (fuel + 1) r pixels =
      (.run (runScan r.prev pixels), r) :: trace fuel r (pixels.drop (runScan r.prev pixels)) := by
  cases pixels with
  | nil => simp [runScan] at h
  | cons v rest => exact if_pos h

theorem trace_of_single {r : Running} {v : Byte} {rest : List Byte} (h : ¬ 2 ≤ runScan r.prev (v :: rest))
    (fuel : Nat) : trace (fuel + 1) r (v :: rest) = (single r v, r.after v) :: trace fuel (r.after v) rest :=
  if_neg h

theorem traces_trace {fuel : Nat} {r : Running} {pixels : List Byte} (hf : pixels.length ≤ fuel) :
    Traces r pixels (trace fuel r pixels) := by
  induction fuel generalizing r pixels with
  | zero => rw [List.eq_nil_of_length_eq_zero (Nat.le_zero.mp hf)]; exact .nil r
  | succ fuel ih =>
    cases pixels with
    | nil => exact .nil r
    | cons v rest =>
      by_cases hrun : 2 ≤ runScan r.prev (v :: rest)
      · have hrest : ((v :: rest).drop (runScan r.prev (v :: rest))).length ≤ fuel := by
          rw [List.length_drop]; omega
        have htr := Traces.cons (.run _ hrun (runScan_le ..)) (ih (r := r) hrest)
        rwa [replicate_runScan_append_drop, ← trace_of_run hrun] at htr
      · have htr := Traces.cons (emits_single r v) (ih (r := r.after v) (Nat.le_of_succ_le_succ hf))
        rwa [after_prev, ← trace_of_single hrun] at htr

theorem traces_traceOf (pixels : List Byte) : Traces .start pixels (traceOf pixels) :=
  traces_trace (Nat.le_refl _)

/-- Every token of a trace is one that the producer emits in some running state. -/
theorem Traces.emits {r : Running} {pixels : List Byte} {tr : List (Instr × Running)} (h : Traces r pixels tr)
    {x : Instr × Running} (hx : x ∈ tr) : ∃ r₀ k, Emits r₀ x.1 k x.2 := by
  induction h with
  | nil => cases hx
  | cons token _ ih =>
    rcases List.mem_cons.mp hx with rfl | hx
    · exact ⟨_, _, token⟩
    · exact ih hx

/-- The first token of a trace that goes over the pixels from pixel `n` on. -/
theorem Traces.uncons {pixels : List Byte} {n : Nat} (hn : n ≤ pixels.length) {r r' : Running} {i : Instr}
    {tr : List (Instr × Running)} (h : Traces r (pixels.drop n) ((i, r') :: tr)) :
    ∃ k, Emits r i k r' ∧ n + k ≤ pixels.length ∧ (∀ a, n ≤ a → a < n + k → pixels[a]? = some r'.prev) ∧
      Traces r' (pixels.drop (n + k)) tr := by
  generalize hpixels : pixels.drop n = todo at h
  cases h with
  | @cons _ _ _ k rest _ token further =>
    have hlen := congrArg List.length hpixels
    rw [List.length_drop, List.length_append, List.length_replicate] at hlen
    refine ⟨k, token, by omega, fun a hlo hhi => ?_, ?_⟩
    · have hdrop : pixels[a]? = (pixels.drop n)[a - n]? := by rw [List.getElem?_drop, Nat.add_sub_cancel' hlo]
      rw [hdrop, hpixels, List.getElem?_append_left (by rw [List.length_replicate]; omega),
        List.getElem?_replicate_of_lt (by omega)]
    · rw [← List.drop_drop, hpixels, List.drop_left' List.length_replicate]
      exact further

/-- A trace without tokens goes over no pixels. -/
theorem Traces.length_le_of_nil {pixels : List Byte} {n : Nat} {r : Running} (h : Traces r (pixels.drop n) []) :
    pixels.length ≤ n := by
  generalize hpixels : pixels.drop n = todo at h
  cases h
  exact List.drop_eq_nil_iff.mp hpixels

/-! ### The statements about the producer alone (R221, R227, R228) -/

/-- A token has the form and the operands that R221 lists. -/
theorem Emits.operands {r r' : Running} {i : Instr} {k : Nat} (h : Emits r i k r') :
    (∃ len, i = .run len ∧ 2 ≤ len ∧ len ≤ 1023) ∨ (∃ v, i = .lit 0#6 v) ∨ (∃ x, i = .cref x) ∨
      (∃ d, i = .delta d ∧ -32 ≤ d ∧ d ≤ 31) := by
  cases h with
  | run k two cap => exact .inl ⟨k, rfl, two, cap⟩
  | lit v => exact .inr (.inl ⟨v, rfl⟩)
  | cref v => exact .inr (.inr (.inl ⟨_, rfl⟩))
  | delta v _ _ lo hi => exact .inr (.inr (.inr ⟨_, rfl, lo, hi⟩))

/-- A CREF is emitted on a hit, and leaves the slot that it names as it was. -/
theorem Emits.cref_slot {r r' : Running} {x : Fin 64} {k : Nat} (h : Emits r (.cref x) k r') :
    r'.cache.get x = ⟨true, r'.prev⟩ := by
  cases h with
  | cref v hit => exact hit

/-- The header and the footer take 20 bytes. -/
theorem stream_length (w h : Word) (pixels : List Byte) :
    (stream w h pixels).length = 20 + ((tokensOf pixels).map Instr.bytes).sum := by
  have htokens : ((tokensOf pixels).flatMap encode).length = ((tokensOf pixels).map Instr.bytes).sum := by
    simp only [List.length_flatMap, encode_length]
  have hhdr : (encode (.hdr w h)).length = 12 := encode_length _
  have hftr : (encode .ftr).length = 8 := encode_length _
  rw [stream, List.length_append, List.length_append, htokens, hhdr, hftr]
  omega

/-- Settles O51: each token of the trace is one of the four that the producer emits. -/
theorem producerStreamsWellFormed : Obligations.ProducerStreamsWellFormed := by
  refine ⟨fun pixels i hi => ?_, fun pixels x r hx => ?_, fun w h pixels => ⟨rfl, stream_length w h pixels⟩, rfl⟩
  · obtain ⟨⟨_, r⟩, hx, rfl⟩ := List.mem_map.mp hi
    obtain ⟨_, _, he⟩ := (traces_traceOf pixels).emits hx
    exact he.operands
  · obtain ⟨_, _, he⟩ := (traces_traceOf pixels).emits hx
    exact he.cref_slot

/-- Settles O52: only step 4 emits a DELTA, and it comes after the steps for an empty slot and for a hit. -/
theorem producerDeltaBoundary : Obligations.ProducerDeltaBoundary := by
  intro r v
  refine ⟨⟨?emitted, ?applies⟩, fun d h => ?difference⟩
  case emitted =>
    rintro ⟨d, h⟩
    obtain ⟨valid, other, lo, hi, rfl⟩ := of_single_eq_delta h
    exact ⟨valid, other, lo, hi⟩
  case applies => exact fun ⟨valid, other, hd⟩ => ⟨_, single_of_near valid other hd⟩
  case difference =>
    obtain ⟨_, _, _, _, hd⟩ := of_single_eq_delta h
    exact hd

/-- At the start a sequence of zeros is a run, as long as the cap lets it be, and what is left of it. -/
theorem tokensOf_replicate_zero {n : Nat} (h2 : 2 ≤ n) :
    tokensOf (List.replicate n 0#8) =
      .run (min 1023 n) :: (trace (n - 1) .start (List.replicate (n - min 1023 n) 0#8)).map Prod.fst := by
  have hscan : runScan Running.start.prev (List.replicate n 0#8) = min 1023 n := runScan_replicate 0#8 n
  have hrun : 2 ≤ runScan Running.start.prev (List.replicate n 0#8) := by rw [hscan]; omega
  have hfuel : (List.replicate n 0#8).length = n - 1 + 1 := by rw [List.length_replicate]; omega
  rw [tokensOf, traceOf, hfuel, trace_of_run hrun, hscan, List.drop_replicate, List.map_cons]

/-- Settles O53: up to the cap no pixel is left over, and the one left over of 1024 is no run. -/
theorem producerRunBoundary : Obligations.ProducerRunBoundary := by
  refine ⟨fun n h2 hcap => ?_, ?_⟩
  · rw [tokensOf_replicate_zero h2, Nat.min_eq_right hcap, Nat.sub_self, List.replicate_zero, trace_nil, List.map_nil]
  · have hone : trace 1023 .start [0#8] = [(.lit 0#6 0#8, Running.start.after 0#8)] := by
      rw [trace_of_single (fuel := 1022) (by decide), trace_nil]; rfl
    rw [tokensOf_replicate_zero (by decide)]
    exact congrArg (Instr.run 1023 :: ·.map Prod.fst) hone

end Producer
end Sys2Proof.Machine
end

section
/-!
PROOFS. The engine on the producer's stream: it goes through the producer's states and writes the producer's pixels
(48_reference_encoder.md R225, R226).
-/
namespace Sys2Proof.Machine

open Producer (Running Emits Traces)

/-! ### The launch (R275) -/

theorem Memory.holds_writeAll (m : Memory) (a : Nat) (bs : List Byte) : (m.writeAll a bs).Holds a bs :=
  (holds_iff ..).mpr fun k hk => by simp [read_writeAll, hk]

@[simp] theorem loadEvents_length (a : Nat) (bs : List Byte) : (loadEvents a bs).length = bs.length := by
  induction bs generalizing a with
  | nil => rfl
  | cons b bs ih => rw [loadEvents, List.length_cons, List.length_cons, ih]

theorem step_inMemWrite {s : State} {o : Nat} {b : Byte} {rest : List Event} (hb : ¬ s.Busy)
    (ho : o < s.cfg.inMemSize) (ha : s.host.agenda = .host (.inMemWrite o b) :: rest) :
    step s = .next ((s.withAgenda rest).withInMem (s.inMem.write o b)) := by
  rw [step_cons ha]
  exact (if_neg hb).trans (if_pos ho)

/-- Loading a stream takes one step for each of its bytes. -/
theorem runs_loadEvents {s : State} {a : Nat} {bs : List Byte} {rest : List Event} (hb : ¬ s.Busy)
    (hfits : a + bs.length ≤ s.cfg.inMemSize) (ha : s.host.agenda = loadEvents a bs ++ rest) :
    runs bs.length s = .next ((s.withAgenda rest).withInMem (s.inMem.writeAll a bs)) := by
  induction bs generalizing s a with
  | nil =>
    have hsame : s.withAgenda rest = s := by rw [State.withAgenda, ← ha.trans (List.nil_append rest)]
    rw [hsame]; rfl
  | cons b bs ih =>
    rw [List.length_cons] at hfits
    rw [List.length_cons, runs_succ_of_next (step_inMemWrite hb (by omega) ha)]
    exact ih hb (by simp only [State.withInMem, State.withAgenda_cfg]; omega) rfl

/-- The two CSR writes of the launch put the machine at the header step of a stream of `n` bytes. -/
theorem runs_start {s : State} {n : Word} (hb : ¬ s.Busy)
    (ha : s.host.agenda = [.host (.csrWrite 4 0x008 n), startEvent]) :
    runs 2 s = .next { s.withAgenda [] with streamLen := n }.startPass := by
  have hlen : step s = .next { s.withAgenda [startEvent] with streamLen := n } :=
    (step_streamLenWrite ha).trans (congrArg _ (if_neg hb))
  have hstart := step_startEvent (s := { s.withAgenda [startEvent] with streamLen := n }) hb rfl
  rw [runs_succ_of_next hlen, runs_succ_of_next hstart]; rfl

/-- The state in which the launch of a stream leaves the machine: the stream in InMem, and the header step next. -/
def State.launched (s : State) (bs : List Byte) : State :=
  { (s.withAgenda []).withInMem (s.inMem.writeAll 0 bs) with streamLen := BitVec.ofNat 32 bs.length }.startPass

theorem runs_launch {s : State} {bs : List Byte} (hb : ¬ s.Busy) (hfits : bs.length ≤ s.cfg.inMemSize)
    (ha : s.host.agenda = launch bs) : runs (launch bs).length s = .next (s.launched bs) := by
  rw [launch, List.length_append, loadEvents_length, runs_add (runs_loadEvents hb (by omega) ha)]
  exact runs_start hb rfl

/-! ### One token of the producer, run by the engine -/

/-- The engine's `prev` and cache, as a running state of the producer. -/
def State.running (s : State) : Running := ⟨s.prev, s.cache⟩

theorem Producer.Emits.wf_region {r r' : Running} {i : Instr} {k : Nat} (h : Emits r i k r') :
    i.wf = true ∧ i.region = .token := by
  cases h with
  | run k _ cap => exact ⟨decide_eq_true (Nat.le_trans cap (by decide)), rfl⟩
  | lit v => exact ⟨rfl, rfl⟩
  | cref v => exact ⟨rfl, rfl⟩
  | delta v _ _ lo hi => exact ⟨decide_eq_true ⟨lo, hi⟩, rfl⟩

/-- The effect on the engine of a token `i` after whose `k` pixels the producer's running state is `r`. -/
def State.afterEmitted (s : State) (i : Instr) (k : Nat) (r : Running) : State :=
  { s with cache := r.cache }.afterToken k r.prev i.bytes

/-- Where the token and its pixels fit, the engine does with it what the producer did. -/
theorem exec_of_emits {s : State} {i : Instr} {k : Nat} {r : Running} (h : Emits s.running i k r)
    (hin : s.ptr.toNat + i.bytes ≤ s.tokenEnd.toNat) (hroom : s.Room k) :
    exec i s = .next (s.afterEmitted i k r) := by
  cases h with
  | run k =>
    have hexec : exec (.run k) s = .next ((State.appendPixels k s.prev s).advance 2#32) :=
      (withSecondByte_of_inside _ hin).trans (withRoom_of_room _ hroom)
    rw [hexec, State.afterRun_eq_afterToken]; rfl
  | lit v => exact (withSecondByte_of_inside _ hin).trans (withRoom_of_room _ hroom)
  | cref v hit =>
    have hslot : s.lookup (hash v) = ⟨true, v⟩ := hit
    rw [exec_cref_of_valid (by rw [hslot]), withRoom_of_room _ hroom, hslot]; rfl
  | delta v =>
    have hv : accumulate s.prev (v - s.running.prev).toInt = v := accumulate_toInt_sub s.prev v
    rw [exec_delta, withRoom_of_room _ hroom, hv]; rfl

namespace State

/-- The engine is then in the producer's running state. -/
@[simp] theorem afterEmitted_running (s : State) (i : Instr) (k : Nat) (r : Running) :
    (s.afterEmitted i k r).running = r :=
  congrArg (Running.mk r.prev) (appendPixels_cache k r.prev _)

@[simp] theorem afterEmitted_width (s : State) (i : Instr) (k : Nat) (r : Running) :
    (s.afterEmitted i k r).width = s.width := appendPixels_width k r.prev _

@[simp] theorem afterEmitted_height (s : State) (i : Instr) (k : Nat) (r : Running) :
    (s.afterEmitted i k r).height = s.height := appendPixels_height k r.prev _

theorem afterEmitted_ptr {s : State} {i : Instr} (h : s.ptr.toNat + i.bytes ≤ s.tokenEnd.toNat) (k : Nat)
    (r : Running) : (s.afterEmitted i k r).ptr.toNat = s.ptr.toNat + i.bytes := by
  rw [afterEmitted, afterToken_ptr, ptr_add_toNat h]

theorem afterEmitted_outCount {s : State} {k : Nat} (hk : s.outCount.toNat + k ≤ 2 ^ 32 - 1) (i : Instr)
    (r : Running) : (s.afterEmitted i k r).outCount.toNat = s.outCount.toNat + k :=
  afterToken_outCount (s := { s with cache := r.cache }) hk r.prev i.bytes

theorem read_afterEmitted {s : State} {k : Nat} (hk : s.outCount.toNat + k ≤ 2 ^ 32 - 1) (i : Instr) (r : Running)
    (a : Nat) : (s.afterEmitted i k r).pixMem.read a =
      if s.outCount.toNat ≤ a ∧ a < s.outCount.toNat + k then some r.prev else s.pixMem.read a :=
  read_afterToken (s := { s with cache := r.cache }) hk r.prev i.bytes a

end State

/-! ### The pass over the producer's stream -/

/-- The bytes of a trace's tokens. -/
def Producer.tokenBytes (tr : List (Instr × Running)) : List Byte := (tr.map Prod.fst).flatMap encode

theorem Producer.tokenBytes_cons (i : Instr) (r : Running) (tr : List (Instr × Running)) :
    tokenBytes ((i, r) :: tr) = encode i ++ tokenBytes tr := rfl

/-- The engine is between two tokens of a pass over the producer's stream for `pixels`: the tokens of `tr` are still
to come, they start at `ptr` and end at `end`, and the pixels before theirs have been written. -/
structure Decoding (w h : Word) (pixels : List Byte) (tr : List (Instr × Running)) (s : State) : Prop where
  agenda : s.host.agenda = []
  sizes : s.cfg.SizesInRange
  phase : s.phase = .tokens
  width : s.width = w
  height : s.height = h
  bytes : s.inMem.Holds s.ptr.toNat (Producer.tokenBytes tr)
  bound : s.ptr.toNat + (Producer.tokenBytes tr).length = s.tokenEnd.toNat
  fits : s.tokenEnd.toNat ≤ s.cfg.inMemSize
  room : pixels.length ≤ s.cfg.pixMemSize
  count : s.outCount.toNat ≤ pixels.length
  written : ∀ a, a < s.outCount.toNat → s.pixMem.read a = pixels[a]?
  trace : Traces s.running (pixels.drop s.outCount.toNat) tr

namespace Decoding

variable {w h : Word} {pixels : List Byte} {s : State}

/-- One step decodes one token: the engine's `prev` and cache are then the producer's after that token. -/
theorem step {i : Instr} {r : Running} {tr : List (Instr × Running)} (hd : Decoding w h pixels ((i, r) :: tr) s) :
    ∃ t, Machine.step s = .next t ∧ t.running = r ∧ Decoding w h pixels tr t := by
  obtain ⟨k, htoken, hcount, hpixels, hfurther⟩ := hd.trace.uncons hd.count
  obtain ⟨hwf, hregion⟩ := htoken.wf_region
  have hbytes := hd.bytes
  have hbound := hd.bound
  rw [Producer.tokenBytes_cons, Memory.holds_append, encode_length] at hbytes
  rw [Producer.tokenBytes_cons, List.length_append, encode_length] at hbound
  obtain ⟨hfirst, hothers⟩ := hbytes
  have hin : s.ptr.toNat + i.bytes ≤ s.tokenEnd.toNat := by omega
  have hroom : s.Room k := Nat.le_trans hcount hd.room
  have hlim : s.outCount.toNat + k ≤ 2 ^ 32 - 1 := Nat.le_trans hroom hd.sizes.2.2
  have hdec : decode .token (encode i ++ []) = .ok (i, []) := hregion ▸ decodeInvertsEncode i [] hwf
  have hengine : engineStep s = .next (s.afterEmitted i k r) :=
    (engineStep_of_decode hdec hd.phase (by rwa [encode_length]) hd.fits hfirst).trans
      (exec_of_emits htoken hin hroom)
  have hptr := State.afterEmitted_ptr hin k r
  have hout := State.afterEmitted_outCount hlim i r
  exact ⟨_, (step_nil hd.agenda).trans hengine, State.afterEmitted_running s i k r, {
    agenda := by simpa [State.afterEmitted] using hd.agenda
    sizes := by simpa [State.afterEmitted] using hd.sizes
    phase := by simpa [State.afterEmitted] using hd.phase
    width := by simpa using hd.width
    height := by simpa using hd.height
    bytes := by rw [hptr]; simpa [State.afterEmitted] using hothers
    bound := by rw [hptr]; simp only [State.afterEmitted, State.afterToken_tokenEnd]; omega
    fits := by simpa [State.afterEmitted] using hd.fits
    room := by simpa [State.afterEmitted] using hd.room
    count := by rw [hout]; exact hcount
    written := fun a ha => by
      rw [State.read_afterEmitted hlim]
      split
      · next hnew => exact (hpixels a hnew.1 hnew.2).symm
      · exact hd.written a (by omega)
    trace := by rw [hout, State.afterEmitted_running]; exact hfurther }⟩

/-- A pass over the rest of a trace writes the rest of the pixels, and meets the footer. -/
theorem runs_to_done {tr : List (Instr × Running)} (hd : Decoding w h pixels tr s) :
    ∃ k t, runs k s = .next t ∧ t.phase = .done ∧ t.outCount.toNat = pixels.length ∧ t.width = w ∧ t.height = h ∧
      ∀ a, a < pixels.length → t.pixMem.read a = pixels[a]? := by
  induction tr generalizing s with
  | nil =>
    have hend : s.tokenEnd.toNat ≤ s.ptr.toNat := Nat.le_of_eq hd.bound.symm
    have hall : s.outCount.toNat = pixels.length := Nat.le_antisymm hd.count hd.trace.length_le_of_nil
    exact ⟨1, s.finish, runs_succ_of_next ((step_nil hd.agenda).trans (engineStep_bound hd.phase hend)) 0, rfl, hall,
      hd.width, hd.height, hall ▸ hd.written⟩
  | cons x tr ih =>
    obtain ⟨t, ht, -, hdt⟩ := hd.step
    obtain ⟨k, u, hrun, hu⟩ := ih hdt
    exact ⟨k + 1, u, (runs_succ_of_next ht k).trans hrun, hu⟩

/-- After its token `j` of the trace the engine's `prev` and cache are the producer's. -/
theorem runs_running {tr : List (Instr × Running)} (hd : Decoding w h pixels tr s) (j : Nat) (hj : j < tr.length) :
    ∃ t, runs (j + 1) s = .next t ∧ t.running = tr[j].2 := by
  induction tr generalizing s j with
  | nil => cases hj
  | cons x tr ih =>
    obtain ⟨t, ht, hrunning, hdt⟩ := hd.step
    cases j with
    | zero => exact ⟨t, runs_succ_of_next ht 0, hrunning⟩
    | succ j =>
      obtain ⟨u, hrun, hu⟩ := ih hdt j (Nat.lt_of_succ_lt_succ hj)
      exact ⟨u, (runs_succ_of_next ht (j + 1)).trans hrun, hu⟩

end Decoding

theorem Producer.stream_eq (w h : Word) (pixels : List Byte) :
    stream w h pixels = encode (.hdr w h) ++ tokenBytes (traceOf pixels) ++ encode .ftr := rfl

theorem Producer.stream_length_eq (w h : Word) (pixels : List Byte) :
    (stream w h pixels).length = 12 + (tokenBytes (traceOf pixels)).length + 8 := by
  rw [stream_eq, List.length_append, List.length_append, encode_length, encode_length]; rfl

/-- The tokens of the producer's stream stand after the twelve bytes of its header. -/
theorem Memory.holds_stream {m : Memory} {w h : Word} {pixels : List Byte}
    (hm : m.Holds 0 (Producer.stream w h pixels)) :
    m.Holds 0 (encode (.hdr w h)) ∧ m.Holds 12 (Producer.tokenBytes (Producer.traceOf pixels)) := by
  rw [Producer.stream_eq, holds_append, holds_append] at hm
  obtain ⟨hheader, _⟩ := hm
  exact hheader

/-- The launch of the producer's stream and the header step lead to the first of its tokens. -/
theorem runs_to_decoding {s : State} {w h : Word} {pixels : List Byte} (hinv : s.Inv) (hb : ¬ s.Busy)
    (ha : s.host.agenda = launch (Producer.stream w h pixels))
    (hfits : (Producer.stream w h pixels).length ≤ s.cfg.inMemSize) (hroom : pixels.length ≤ s.cfg.pixMemSize) :
    ∃ t, runs ((launch (Producer.stream w h pixels)).length + 1) s = .next t ∧
      Decoding w h pixels (Producer.traceOf pixels) t := by
  have hbytes := Producer.stream_length_eq w h pixels
  obtain ⟨hheader, htokens⟩ :=
    Memory.holds_stream (s.inMem.holds_writeAll 0 (Producer.stream w h pixels))
  generalize Producer.stream w h pixels = bs at *
  have hlen : (s.launched bs).streamLen.toNat = bs.length := by
    have := hinv.sizes.2.1
    exact Nat.mod_eq_of_lt (by omega)
  have hl : (s.launched bs).LengthOk := by
    rw [State.LengthOk, hlen]
    exact ⟨(by omega : 12 ≤ bs.length), hfits⟩
  have hend : ((s.launched bs).loadHeader w h).tokenEnd.toNat = bs.length - 8 := by
    rw [State.loadHeader_tokenEnd, footerBound_toNat hl.1, hlen]
  refine ⟨(s.launched bs).loadHeader w h, ?runs, ?decoding⟩
  case runs =>
    have hstep := engineStep_loadHeader (s := s.launched bs) rfl hl hheader
    exact (runs_add (runs_launch hb hfits ha) 1).trans (runs_succ_of_next ((step_nil rfl).trans hstep) 0)
  case decoding =>
    exact {
      agenda := rfl
      sizes := hinv.sizes
      phase := rfl
      width := rfl
      height := rfl
      bytes := htokens
      bound := by rw [hend, hbytes]; exact (Nat.add_sub_cancel ..).symm
      fits := by rw [hend]; exact Nat.le_trans (Nat.sub_le ..) hfits
      room := hroom
      count := Nat.zero_le _
      written := nofun
      trace := Producer.traces_traceOf pixels }

/-- Settles O54: between two tokens the engine's `prev` and cache are those of the producer's running state. -/
theorem cacheTrajectoriesAgree : Obligations.CacheTrajectoriesAgree := by
  intro s w h pixels j hj hinv hb ha hfits hroom
  obtain ⟨t, ht, hd⟩ := runs_to_decoding hinv hb ha hfits hroom
  obtain ⟨u, hu, hrunning⟩ := hd.runs_running j hj
  exact ⟨u, (runs_add ht (j + 1)).trans hu, congrArg Running.prev hrunning, congrArg Running.cache hrunning⟩

/-- Settles O55: the pass decodes the producer's tokens one by one and ends where the footer starts. -/
theorem roundTrip : Obligations.RoundTrip := by
  intro s w h pixels hinv hb ha hfits hroom
  obtain ⟨t, ht, hd⟩ := runs_to_decoding hinv hb ha hfits hroom
  obtain ⟨k, u, hu, hdone, hcount, hwidth, hheight, hwritten⟩ := hd.runs_to_done
  exact ⟨_, u, (runs_add ht k).trans hu, hdone, hcount, hwidth, hheight, fun i hi => by
    rw [hwritten i hi, List.getElem?_eq_getElem hi]⟩

end Sys2Proof.Machine
end

section
/-!
PROOFS. The statements of 60_exceptions.md: what entering an error leaves in the state, what causes each of the five
errors, and that the engine rests where no pass runs (R240 to R255).
-/
namespace Sys2Proof.Machine

/-! ### Where no pass runs (R255) -/

/-- Settles O9: the engine is busy in none of the three phases. -/
theorem idleEngineKeepsState : Obligations.IdleEngineKeepsState := by
  intro s hrest
  refine engineStep_of_not_busy ?_
  rcases hrest with hp | hp | hp <;> rw [State.Busy, hp] <;> nofun

/-! ### What an error leaves in the state (R243) -/

/-- A step that enters ERROR is one `raise` at `ptr`, which the header step finds at 0. -/
theorem State.Inv.raiseError_of_engineStep {s t : State} (h : s.Inv) (ht : Machine.engineStep s = .next t)
    (hs : s.phase ≠ .error) (he : t.phase = .error) : ∃ e, t = s.raiseError e s.ptr := by
  cases engineStep_effect ht with
  | none => exact absurd he hs
  | headerError hp e => exact ⟨e, by rw [(h.fresh (.inr hp)).1]⟩
  | headerLoad | finish => cases he
  | tokenError _ e => exact ⟨e, rfl⟩
  | token _ _ _ _ _ _ _ _ _ _ u hu =>
    rw [afterToken_phase] at he
    rcases hu with rfl | rfl <;> exact absurd he hs

/-- Settles O21: a `raise` writes three fields, and the state it leaves is at rest. -/
theorem errorsArePrecise : Obligations.ErrorsArePrecise := by
  intro s t hinv ht hs he
  obtain ⟨e, rfl⟩ := hinv.raiseError_of_engineStep ht hs he
  obtain ⟨hlo, hhi⟩ := e.code_range
  exact ⟨e.code, hlo, hhi, rfl, fun hp => (hinv.fresh (.inr hp)).1, idleEngineKeepsState _ (.inr (.inr rfl))⟩

/-! ### What causes an error (R241) -/

/-- The byte of a CREF is its index (R84). -/
theorem ofNat_crefIndex {b0 : Byte} (h : b0.toNat < 0x40) : BitVec.ofNat 8 (crefIndex b0) = b0 := by
  have hval : (crefIndex b0).val = b0.toNat := (lowSix_toNat b0).trans (Nat.mod_eq_of_lt h)
  rw [hval, BitVec.ofNat_toNat, BitVec.setWidth_eq]

/-- A RUN's length is what its first byte exceeds 0x80 by, and then its second byte (R86). -/
theorem runLength_eq_sub {b0 : Byte} (hlo : 0x80 ≤ b0.toNat) (hhi : b0.toNat < 0xC0) (b1 : Byte) :
    runLength b0 b1 = (b0.toNat - 0x80) * 256 + b1.toNat := by
  rw [runLength_eq]; omega

/-- A token stands at `ptr` whose pixels do not fit in PixMem (R141, R241). -/
def State.Overflows (s : State) : Prop :=
  s.phase = .tokens ∧
    ∃ (b0 : Byte) (k : Nat), s.inMem.read s.ptr.toNat = some b0 ∧ s.cfg.pixMemSize < s.outCount.toNat + k ∧
      (if 0x80 ≤ b0.toNat ∧ b0.toNat < 0xC0 then
        ∃ b1 : Byte, s.inMem.read (s.ptr.toNat + 1) = some b1 ∧ k = (b0.toNat - 0x80) * 256 + b1.toNat
      else k = 1)

/-- CREF, DELTA and LIT append one pixel. -/
theorem State.overflows_of_one {s : State} {b0 : Byte} (hp : s.phase = .tokens)
    (hb0 : s.inMem.read s.ptr.toNat = some b0) (hr : ¬ s.Room 1) (hrun : ¬ (0x80 ≤ b0.toNat ∧ b0.toNat < 0xC0)) :
    s.Overflows :=
  ⟨hp, b0, 1, hb0, Nat.not_le.mp hr, (if_neg hrun).mpr rfl⟩

/-- RUN appends as many as its two bytes say. -/
theorem State.overflows_of_run {s : State} {b0 b1 : Byte} (hp : s.phase = .tokens)
    (hb0 : s.inMem.read s.ptr.toNat = some b0) (hb1 : s.inMem.read (s.ptr.toNat + 1) = some b1)
    (hr : ¬ s.Room (runLength b0 b1)) (hlo : 0x80 ≤ b0.toNat) (hhi : b0.toNat < 0xC0) : s.Overflows :=
  ⟨hp, b0, _, hb0, Nat.not_le.mp hr, (if_pos ⟨hlo, hhi⟩).mpr ⟨b1, hb1, runLength_eq_sub hlo hhi b1⟩⟩

/-- Settles O22: of the effects of an engine step those that raise an error carry its cause, and the others do not
enter ERROR. -/
theorem errorCauses : Obligations.ErrorCauses := by
  intro s t _ ht hs he
  rcases engineStep_cases ht with ⟨_, rfl⟩ | ⟨hp, hl, rfl⟩ | ⟨hp, hl, hmagic, rfl⟩ |
    ⟨_, _, _, _, _, _, _, _, _, _, _, rfl⟩ | ⟨_, _, rfl⟩ | ⟨hp, hlt, b0, hb0, htok⟩
  · exact absurd he hs
  · exact .inr (.inr (.inl ⟨rfl, hp, (not_and_or.mp hl).imp Nat.not_le.mp Nat.not_le.mp⟩))
  · exact .inl ⟨rfl, hp, hl, hmagic⟩
  · cases he
  · cases he
  · rcases htok with ⟨h40, hcref⟩ | ⟨h40, h80, hdelta⟩ | ⟨h80, hcut, rfl⟩ |
      ⟨_, b1, hb1, ⟨h80, hc0, hrun⟩ | ⟨hc0, hlit⟩⟩
    · rcases hcref with ⟨hv, rfl⟩ | ⟨_, hr, rfl⟩ | ⟨_, _, rfl⟩
      · exact .inr (.inl ⟨rfl, hp, crefIndex b0, by rw [ofNat_crefIndex h40, hb0], hv⟩)
      · exact .inr (.inr (.inr (.inr ⟨rfl, State.overflows_of_one hp hb0 hr (by omega)⟩)))
      · exact absurd he hs
    · rcases hdelta with ⟨hr, rfl⟩ | ⟨_, rfl⟩
      · exact .inr (.inr (.inr (.inr ⟨rfl, State.overflows_of_one hp hb0 hr (by omega)⟩)))
      · exact absurd he hs
    · exact .inr (.inr (.inr (.inl ⟨rfl, hp, Nat.le_antisymm hlt (Nat.not_lt.mp hcut), b0, hb0, h80⟩)))
    · rcases hrun with ⟨hr, rfl⟩ | ⟨_, rfl⟩
      · exact .inr (.inr (.inr (.inr ⟨rfl, State.overflows_of_run hp hb0 hb1 hr h80 hc0⟩)))
      · rw [State.advance_phase, State.appendPixels_phase] at he
        exact absurd he hs
    · rcases hlit with ⟨hr, rfl⟩ | ⟨_, rfl⟩
      · exact .inr (.inr (.inr (.inr ⟨rfl, State.overflows_of_one hp hb0 hr (by omega)⟩)))
      · exact absurd he hs

end Sys2Proof.Machine
end

section
/-!
PROOFS. The statement of 70_reset_and_hazards.md: what a pass leaves is a function of `stream_len`, the stream's bytes
and the parameters (R273).
-/
namespace Sys2Proof.Machine

/-! ### Two states in the same pass -/

/-- Two states agree in every register and the parameters, on the stream, and on the pixels of the pass. What else
stands in their memories, and the host's side, may differ. -/
structure State.SamePass (s u : State) : Prop where
  cfg : u.cfg = s.cfg
  phase : u.phase = s.phase
  prev : u.prev = s.prev
  ptr : u.ptr = s.ptr
  tokenEnd : u.tokenEnd = s.tokenEnd
  cache : u.cache = s.cache
  outCount : u.outCount = s.outCount
  width : u.width = s.width
  height : u.height = s.height
  errCode : u.errCode = s.errCode
  errOffset : u.errOffset = s.errOffset
  streamLen : u.streamLen = s.streamLen
  stream : ∀ a, a < s.streamLen.toNat → u.inMem.read a = s.inMem.read a
  pixels : ∀ a, a < s.outCount.toNat → u.pixMem.read a = s.pixMem.read a

/-- Where the first outcome is a next state, the second is one in the same pass. -/
def StaysInPass (o o' : Host.Outcome State Fault Refusal) : Prop :=
  ∀ t, o = .next t → ∃ u, o' = .next u ∧ t.SamePass u

/-- Where `w + 1` wraps to 0 no offset lies below it, so appending a pixel needs no room to be assumed. -/
theorem lt_toNat_of_lt_add_one {w : Word} {a : Nat} (ha : a < (w + 1#32).toNat) (hne : a ≠ w.toNat) :
    a < w.toNat := by
  have hle : (w + 1#32).toNat ≤ w.toNat + 1 := by
    rw [BitVec.toNat_add]; exact Nat.mod_le _ _
  omega

/-- The engine's fetch reads neither PixMem nor the host's side. -/
theorem State.fetch_withOutput (s : State) (p : Memory) (h : HostSide) :
    { s with pixMem := p, host := h }.fetch = s.fetch := rfl

namespace State.SamePass

variable {s u : State}

/-! ### One update of both states -/

theorem raiseError (h : s.SamePass u) (e : ErrorKind) (off : Word) :
    (s.raiseError e off).SamePass (u.raiseError e off) :=
  { h with phase := rfl, errCode := rfl, errOffset := rfl }

theorem finish (h : s.SamePass u) : s.finish.SamePass u.finish := { h with phase := rfl }

theorem loadHeader (h : s.SamePass u) (w d : Word) : (s.loadHeader w d).SamePass (u.loadHeader w d) :=
  { h with
    phase := rfl, width := rfl, height := rfl, ptr := rfl
    tokenEnd := congrArg footerBound h.streamLen }

theorem advance (h : s.SamePass u) (n : Word) : (s.advance n).SamePass (u.advance n) :=
  { h with ptr := congrArg (· + n) h.ptr }

theorem setPrev (h : s.SamePass u) (v : Byte) : (s.setPrev v).SamePass (u.setPrev v) := { h with prev := rfl }

theorem fill (h : s.SamePass u) (v : Byte) : (s.fill v).SamePass (u.fill v) :=
  { h with cache := congrArg (Cache.fill · v) h.cache }

/-- The new pixel goes to the same offset of both PixMems, whatever stood there. -/
theorem appendPixel (h : s.SamePass u) (v : Byte) : (s.appendPixel v).SamePass (u.appendPixel v) :=
  { h with
    outCount := congrArg (· + 1#32) h.outCount
    pixels := fun a ha => by
      rw [appendPixel_pixMem, appendPixel_pixMem, h.outCount, Memory.read_write, Memory.read_write]
      split
      · rfl
      · next hne => exact h.pixels a (lt_toNat_of_lt_add_one ha hne) }

theorem appendPixels (h : s.SamePass u) (k : Nat) (v : Byte) :
    (State.appendPixels k v s).SamePass (State.appendPixels k v u) := by
  induction k generalizing s u with
  | zero => exact h
  | succ k ih => exact ih (h.appendPixel v)

theorem afterOne (h : s.SamePass u) (v : Byte) : (s.afterOne v).SamePass (u.afterOne v) :=
  ((h.appendPixel v).setPrev v).advance 1#32

theorem afterLit (h : s.SamePass u) (v : Byte) : (s.afterLit v).SamePass (u.afterLit v) :=
  (((h.fill v).appendPixel v).setPrev v).advance 2#32

/-! ### The checks come out alike -/

theorem room (h : s.SamePass u) (k : Nat) : u.Room k ↔ s.Room k := by rw [Room, Room, h.outCount, h.cfg]

theorem secondByteInside (h : s.SamePass u) : u.SecondByteInside ↔ s.SecondByteInside := by
  rw [SecondByteInside, SecondByteInside, h.ptr, h.tokenEnd]

theorem lengthOk (h : s.SamePass u) : u.LengthOk ↔ s.LengthOk := by
  rw [LengthOk, LengthOk, h.streamLen, h.cfg]

theorem lookup (h : s.SamePass u) (i : Fin 64) : u.lookup i = s.lookup i := by
  rw [State.lookup, State.lookup, h.cache]

/-! ### One engine step of both states -/

theorem next (h : s.SamePass u) : StaysInPass (.next s) (.next u) := by
  rintro _ ⟨rfl⟩; exact ⟨u, rfl, h⟩

theorem withRoom {k : Nat} {go : State → State} (h : s.SamePass u) (hgo : (go s).SamePass (go u)) :
    StaysInPass (withRoom k go s) (withRoom k go u) := by
  by_cases hr : s.Room k
  · rw [withRoom_of_room go hr, withRoom_of_room go ((h.room k).mpr hr)]
    exact hgo.next
  · rw [withRoom_of_not_room go hr, withRoom_of_not_room go (mt (h.room k).mp hr), h.ptr]
    exact (h.raiseError _ _).next

theorem withSecondByte {go : State → Host.Outcome State Fault Refusal} (h : s.SamePass u)
    (hgo : StaysInPass (go s) (go u)) : StaysInPass (withSecondByte go s) (withSecondByte go u) := by
  by_cases hs : s.SecondByteInside
  · rwa [withSecondByte_of_inside go hs, withSecondByte_of_inside go (h.secondByteInside.mpr hs)]
  · rw [withSecondByte_of_not_inside go hs, withSecondByte_of_not_inside go (mt h.secondByteInside.mp hs), h.ptr]
    exact (h.raiseError _ _).next

/-- An instruction's meaning uses registers and writes PixMem; it reads neither memory. -/
theorem exec (h : s.SamePass u) (i : Instr) : StaysInPass (exec i s) (exec i u) := by
  cases i with
  | run len =>
    refine h.withSecondByte (h.withRoom ?_)
    rw [h.prev]
    exact (h.appendPixels len s.prev).advance 2#32
  | lit pad v => exact h.withSecondByte (h.withRoom (h.afterLit v))
  | cref i =>
    by_cases hv : (s.lookup i).valid = true
    · rw [exec_cref_of_valid hv, exec_cref_of_valid (by rwa [h.lookup])]
      refine h.withRoom ?_
      rw [h.lookup]
      exact h.afterOne _
    · rw [exec_cref_of_empty hv, exec_cref_of_empty (by rwa [h.lookup]), h.ptr]
      exact (h.raiseError _ _).next
  | delta d =>
    refine h.withRoom (go := fun s => s.afterOne (accumulate s.prev d)) ?_
    rw [h.prev]
    exact h.afterOne _
  | hdr w d =>
    by_cases hl : s.LengthOk
    · rw [exec_hdr_of_lengthOk hl, exec_hdr_of_lengthOk (h.lengthOk.mpr hl)]
      exact (h.loadHeader w d).next
    · rw [exec_hdr_of_not_lengthOk hl, exec_hdr_of_not_lengthOk (mt h.lengthOk.mp hl)]
      exact (h.raiseError _ _).next
  | ftr => exact h.finish.next

theorem perform (h : s.SamePass u) (f : Fetched) : StaysInPass (perform f s) (perform f u) := by
  cases f with
  | nothing => exact h.next
  | run i => exact h.exec i
  | raise e off => exact (h.raiseError e off).next
  | halt r => cases r <;> nofun

/-- The states differ in no more than the two memories and the host's side. -/
theorem eq_with (h : s.SamePass u) : u = { s.withInMem u.inMem with pixMem := u.pixMem, host := u.host } := by
  cases u
  simp only [withInMem, State.mk.injEq, and_true]
  exact ⟨h.cfg, h.phase, h.prev, h.ptr, h.tokenEnd, h.cache, h.outCount, h.width, h.height, h.errCode, h.errOffset,
    h.streamLen⟩

/-- What the engine may read lies inside the stream, so both states fetch the same. -/
theorem fetch (h : s.SamePass u) (hf : s.EndsAtFooter) : u.fetch = s.fetch := by
  have inside (a : Nat) (ha : s.MayRead a) : a < s.streamLen.toNat := by
    rcases ha with ⟨_, hl, h12⟩ | ⟨hp, _, hend⟩
    · exact Nat.lt_of_lt_of_le h12 hl.1
    · have := hf hp
      omega
  calc u.fetch
    _ = { s.withInMem u.inMem with pixMem := u.pixMem, host := u.host }.fetch := congrArg State.fetch h.eq_with
    _ = (s.withInMem u.inMem).fetch := fetch_withOutput ..
    _ = s.fetch := fetch_withInMem fun a ha => h.stream a (inside a ha)

theorem engineStep (h : s.SamePass u) (hf : s.EndsAtFooter) : StaysInPass (engineStep s) (engineStep u) := by
  rw [Machine.engineStep, Machine.engineStep, h.fetch hf]
  exact h.perform s.fetch

/-! ### The whole pass -/

/-- START clears every register that an earlier pass could have left its mark in (R193). -/
theorem startPass (hcfg : u.cfg = s.cfg) (hlen : u.streamLen = s.streamLen)
    (hin : ∀ a, a < s.streamLen.toNat → u.inMem.read a = s.inMem.read a) : s.startPass.SamePass u.startPass :=
  { cfg := hcfg, streamLen := hlen, stream := hin, pixels := nofun
    phase := rfl, prev := rfl, ptr := rfl, tokenEnd := rfl, cache := rfl, outCount := rfl
    width := rfl, height := rfl, errCode := rfl, errOffset := rfl }

/-- With nothing planned, both machines take the same engine steps. -/
theorem runs {k : Nat} (h : s.SamePass u) (hf : s.EndsAtFooter) (hs : s.host.agenda = [])
    (hu : u.host.agenda = []) : StaysInPass (runs k s) (runs k u) := by
  intro t hr
  induction k generalizing s u with
  | zero => exact h.next t hr
  | succ k ih =>
    obtain ⟨s', hs', hr⟩ := runs_succ_cases hr
    rw [step_nil hs] at hs'
    obtain ⟨u', hu', h'⟩ := h.engineStep hf s' hs'
    obtain ⟨_, _, _, hhost⟩ := engineNeverWritesInput s s' hs'
    obtain ⟨_, _, _, hhost'⟩ := engineNeverWritesInput u u' hu'
    rw [runs_succ_of_next ((step_nil hu).trans hu')]
    exact ih h' (hf.engineStep hs') (by rw [hhost, hs]) (by rw [hhost', hu]) hr

end State.SamePass

/-- Settles O48: START puts both states in the same pass, whatever an earlier one left, and every engine step keeps
them there. -/
theorem passIndependentOfEarlierPasses : Obligations.PassIndependentOfEarlierPasses := by
  intro s₁ s₂ t₁ k _ hb₁ hb₂ hcfg hlen ha₁ ha₂ hin hr
  have started {s : State} (hb : ¬ s.Busy) (ha : s.host.agenda = [startEvent]) :
      runs (1 + k) s = runs k (s.withAgenda []).startPass :=
    runs_add (runs_succ_of_next (step_startEvent hb ha) 0) k
  have hstart : (s₁.withAgenda []).startPass.SamePass (s₂.withAgenda []).startPass :=
    .startPass hcfg.symm hlen.symm fun a ha => (hin a ha).symm
  rw [started hb₁ ha₁] at hr
  rw [started hb₂ ha₂]
  obtain ⟨t₂, hr₂, h⟩ := hstart.runs nofun rfl rfl t₁ hr
  exact ⟨t₂, hr₂, h.phase, h.prev, h.ptr, h.tokenEnd, h.cache, h.outCount, h.width, h.height, h.errCode, h.errOffset,
    h.pixels⟩

end Sys2Proof.Machine
end
